-- ==== Sys2Proof/Word.lean ====
section
/-! DEFINITION. The words of the block, at the widths of spec/00_scope.md R6 and of the ports of spec/10_state.md R34.
W_COEF and W_ENG are open parameters of an instance, so the numbers of those widths are the integers they stand for. -/

namespace Sys2Proof

/-- One byte of a frame. -/
abbrev Byte := BitVec 8

/-- Eight byte lanes: frame byte `b` is bits `[8*b+7 : 8*b]` (20_memory R41). The type of the 64-bit frame ports and
of the Codec State `CS[0..7]`. -/
abbrev Frame := BitVec 64

/-- A raw integer before scaling: a W_RAW-bit pattern, read signed or unsigned by its descriptor (00_scope R6). -/
abbrev Raw := BitVec 64

/-- SCALE and OFFSET: a W_COEF-bit two's complement fixed-point pattern, as the integer it stands for (00_scope R9). -/
abbrev Coef := Int

/-- An engineering value, MIN, MAX, CMD[k], CD[k]: a W_ENG-bit two's complement fixed-point pattern, as the integer it
stands for (00_scope R9). -/
abbrev Eng := Int

/-- The command header `cmd_hdr` (30_encoding R59). -/
abbrev Header := BitVec 16

/-- A descriptor control word: `cmd_desc` of a pure command, or CTL of a configured descriptor (30_encoding R63). -/
abbrev CtlWord := BitVec 32

end Sys2Proof
end

