-- ==== Sys2Proof/Config.lean ====
section
/-! DEFINITION. What is fixed for one instance of the block (spec/00_scope.md R6, spec/10_state.md R13 to R20), the
example configuration X1 of spec/95_test_vectors.md section 3, and the free values: what the spec gives no value to. -/

namespace Sys2Proof

/-- ROUND, the rounding of encode (00_scope R6), open for a platform with evidence of another rule than the spec's
(92_eei_decisions D3). -/
inductive RoundRule
  /-- To nearest, ties away from zero: the spec's choice (41_transform R97). -/
  | halfAway
  /-- To nearest, ties to even: banker's rounding (91_not_in_source N4; log 10). -/
  | halfEven
  /-- Truncation (91_not_in_source N4; log 10). -/
  | towardZero
  /-- Any other rule: a free value (log 10). -/
  | other
deriving DecidableEq, Repr

/-- SIGNED_CLAMP, the raw range a signed field is clamped to (00_scope R6), open with two values (92_eei_decisions
D4). -/
inductive SignedClamp
  /-- From -(2^(L-1)-1): the spec's choice (41_transform R100). -/
  | symmetric
  /-- From -2^(L-1). -/
  | twosComplement
deriving DecidableEq, Repr

/-- The open parameters of the number formats and of the scaler (00_scope R6, 92_eei_decisions D2, D3, D4). -/
structure Params where
  /-- FRAC, the fractional bits of every fixed-point number. No rule computes with it, because scale, offset and
  engineering values share it (41_transform R93); it says what a pattern stands for (00_scope R9). -/
  frac        : Nat
  /-- W_COEF, the width of SCALE and OFFSET. -/
  wCoef       : Nat
  /-- W_ENG, the width of an engineering value, of MIN, MAX, CMD[k], CD[k]. -/
  wEng        : Nat
  /-- ROUND. -/
  round       : RoundRule
  /-- SIGNED_CLAMP. -/
  signedClamp : SignedClamp
deriving DecidableEq, Repr

/-- The values the spec gives the open parameters (00_scope R6). -/
def Config.params : Params where
  frac        := 16
  wCoef       := 32
  wEng        := 128
  round       := .halfAway
  signedClamp := .symmetric

/-- One row of the descriptor table: the Signal Descriptor `DESC[k]` (10_state R19) and the default staged command
value `DEF_CMD[k]` (10_state R20), which is looked at only when the row is writable (log 15). -/
structure Desc where
  /-- START, LEN, ORDER, SIGNED, WR, OVL and the reserved bits, in the layout of 30_encoding R63. -/
  ctl    : CtlWord
  /-- SCALE, the integer S. -/
  scale  : Coef
  /-- OFFSET, the integer O. -/
  offset : Coef
  /-- MIN, low end of the valid numeric range. -/
  min    : Eng
  /-- MAX, high end of the valid numeric range. -/
  max    : Eng
  /-- DEF_CMD[k], used only when WR = 1. -/
  defCmd : Eng
deriving DecidableEq, Repr

/-- The configuration constants of one instance (10_state R13 a, R15). NSIG is the length of `descs` (10_state R18). -/
structure CodecConfig where
  /-- The open parameters this instance is built with (00_scope R6). -/
  par      : Params
  /-- ID, the message identifier (10_state R14). -/
  id       : BitVec 32
  /-- PERIOD in milliseconds, 0 = event-only (10_state R16). -/
  period   : BitVec 32
  /-- DLEN, the message's declared byte width (10_state R17). -/
  dlen     : BitVec 4
  /-- DESC[0..NSIG-1] with DEF_CMD (10_state R18, R19, R20). -/
  descs    : List Desc
  /-- DEF_BYTES[0..7] (10_state R20). -/
  defBytes : Frame
deriving DecidableEq, Repr

/-- The example configuration X1 (95_test_vectors section 3), synthetic and the spec's own. DESIGN CHOICE: the
instance that State.reset names (log 2). -/
def Config.x1 : CodecConfig where
  par      := Config.params
  id       := 0x00000112
  period   := 20
  dlen     := 8
  descs    :=
    [ ⟨0x00071000, 8192, 0, -32768000, 32768000, 0⟩,
      ⟨0x00040C10, 4096, 0, 0, 16773120, 0⟩,
      ⟨0x0004011C, 65536, 0, 0, 65536, 0⟩,
      ⟨0x00000820, 65536, -2621440, -2621440, 14090240, 0⟩,
      ⟨0x0005043C, 65536, 0, 0, 983040, 0⟩ ]
  defBytes := 0x0000002800000000

/-- FREE VALUE (log 6): what CS holds after a reset sequence that failed its checks, at the given draw. The spec
gives it no defined value (10_state R33, 93_implementation_defined U15). -/
opaque Config.freeCs : Nat → Frame

/-- FREE VALUE (log 6, log 9): what a staged command register with no defined value holds, at the given draw and
index (10_state R33, 93_implementation_defined U15). -/
opaque Config.freeCmd : Nat → Nat → Eng

/-- FREE VALUE (log 10): the quotient of two integers under a rounding rule that the spec does not describe
(92_eei_decisions D3). -/
opaque Config.otherRound : Int → Int → Int

/-- FREE VALUE (log 7): whether a PARSE cut by `rst` had already written its entry, at the given draw and index
(70_reset_and_hazards R165, 93_implementation_defined U16). -/
opaque Config.cutWrote : Nat → Nat → Bool

end Sys2Proof
end

