-- ==== Sys2Proof/Syntax.lean ====
section
/-! DEFINITION. The commands as syntax (spec/30_encoding.md): the record presented on the command port, and the
twelve commands of spec/opcode_table.json with the operands each examines. -/

namespace Sys2Proof

/-- Byte order of a field: ORDER = 0 is Intel, ORDER = 1 is Motorola (30_encoding R63). -/
inductive ByteOrder
  | intel
  | motorola
deriving DecidableEq, Repr

/-- The record on the command port: the header and the seven operand fields (30_encoding R59). The fields of W_ENG and
W_COEF wires are integers; of each an instance has the low bits of its own width, `sint` in Machine/Operands.lean. -/
structure Command where
  hdr    : Header
  desc   : CtlWord
  frame  : Frame
  val    : Eng
  scale  : Coef
  offset : Coef
  min    : Eng
  max    : Eng
deriving DecidableEq, Repr

/-- The rows of the opcode map (30_encoding R60). -/
inductive Mnemonic
  | extract | insert | decode | encode | parse | update | reset | getid | getperiod | stage | rdstate | rdstatus
deriving DecidableEq, Repr

/-- One row of the opcode map: a header `h` selects it when `h AND mask = pattern` (30_encoding R60). -/
structure OpRow where
  mnemonic : Mnemonic
  pattern  : Header
  mask     : Header
deriving DecidableEq, Repr

/-- Why a command word is illegal (30_encoding R69 steps 3, 4, 5). -/
inductive Illegal
  /-- No row matches the header. -/
  | noRow
  /-- EXTRACT or INSERT with FLEN above 8. -/
  | frameSize
  /-- A pure command with `cmd_desc[31:18]` not zero. -/
  | reservedDesc
deriving DecidableEq, Repr

/-- The twelve commands, each with the operands it examines (30_encoding R61) and no others, as the port presents
them. -/
inductive Instr
  /-- `extract(frame, bitStart, bitLength, order)` (40_bitfield R84). -/
  | extract (flen : BitVec 4) (start len : BitVec 8) (order : ByteOrder) (signed : Bool) (frame : Frame)
  /-- `insert(frame, bitStart, bitLength, order, value)` (40_bitfield R88). -/
  | insert (flen : BitVec 4) (start len : BitVec 8) (order : ByteOrder) (value : Raw) (frame : Frame)
  /-- `decode(rawInt, scale, offset)` (41_transform R95). -/
  | decode (raw : Raw) (signed : Bool) (scale offset : Coef)
  /-- `encode(engValue, scale, offset)` (41_transform R99). -/
  | encode (eng : Eng) (scale offset : Coef) (len : BitVec 8) (signed : Bool) (min max : Eng)
  /-- `parse(frame, frameLength, out ChassisDetail)` (42_codec R124). -/
  | parse (flen : BitVec 4) (frame : Frame)
  /-- `updateData(out frame)` (42_codec R127). -/
  | update
  /-- `reset()` (42_codec R129). -/
  | reset
  /-- `identifier()` (42_codec R122). -/
  | getid
  /-- `period()` (42_codec R123). -/
  | getperiod
  /-- Staging of one command value (42_codec R131). -/
  | stage (idx : BitVec 8) (eng : Eng)
  /-- The scheduler's read of the Codec State (42_codec R133). -/
  | rdstate
  /-- The read of STATUS (42_codec R134). -/
  | rdstatus
deriving DecidableEq, Repr

end Sys2Proof
end

