-- ==== Sys2Proof/WellFormed.lean ====
section
/-! DEFINITION. The one condition the types of Instr do not carry: EXTRACT and INSERT have a frame of at most eight
bytes (spec/30_encoding.md R69 step 4). -/

namespace Sys2Proof

/-- What a legal encoding guarantees of the decoded command (30_encoding R69). -/
def Instr.wellFormed : Instr → Bool
  | .extract flen _ _ _ _ _ => decide (flen.toNat ≤ 8)
  | .insert flen _ _ _ _ _  => decide (flen.toNat ≤ 8)
  | .decode _ _ _ _         => true
  | .encode _ _ _ _ _ _ _   => true
  | .parse _ _              => true
  | .update                 => true
  | .reset                  => true
  | .getid                  => true
  | .getperiod              => true
  | .stage _ _              => true
  | .rdstate                => true
  | .rdstatus               => true

abbrev Instr.WellFormed (i : Instr) : Prop := i.wellFormed = true

end Sys2Proof
end

