-- ==== Sys2Proof/Decode.lean ====
section
/-! DEFINITION. The decoder of spec/30_encoding.md R60, R61, R63, R69, total on every command record, and the encoder
written from the same tables. -/

namespace Sys2Proof

/-! ## Fields of the header and of the control word -/

/-- FLEN, `cmd_hdr[11:8]` (30_encoding R59). -/
def hdrFlen (h : Header) : BitVec 4 := h.extractLsb' 8 4

/-- IDX, `cmd_hdr[7:0]` (30_encoding R59). -/
def hdrIdx (h : Header) : BitVec 8 := h.extractLsb' 0 8

/-- START, bits [7:0] (30_encoding R63). -/
def ctlStart (w : CtlWord) : BitVec 8 := w.extractLsb' 0 8

/-- LEN, bits [15:8] (30_encoding R63). -/
def ctlLen (w : CtlWord) : BitVec 8 := w.extractLsb' 8 8

/-- ORDER, bit 16 (30_encoding R63). -/
def ctlOrder (w : CtlWord) : ByteOrder := if w.getLsbD 16 then .motorola else .intel

/-- SIGNED, bit 17 (30_encoding R63). -/
def ctlSigned (w : CtlWord) : Bool := w.getLsbD 17

/-- WR, bit 18, of a configured descriptor (30_encoding R63). -/
def ctlWr (w : CtlWord) : Bool := w.getLsbD 18

/-- OVL, bit 19, of a configured descriptor (30_encoding R63). -/
def ctlOvl (w : CtlWord) : Bool := w.getLsbD 19

/-- Bits [31:20], reserved in a configured descriptor (30_encoding R64). -/
def ctlReserved (w : CtlWord) : BitVec 12 := w.extractLsb' 20 12

/-- Bits [31:18], which must be zero in `cmd_desc` of a pure command (30_encoding R64). -/
def descReserved (w : CtlWord) : BitVec 14 := w.extractLsb' 18 14

/-! ## The opcode map and the decoder -/

/-- The opcode map of 30_encoding R60 and spec/opcode_table.json. -/
def opcodeTable : List OpRow :=
  [ ⟨.extract,   0x1000, 0xF0FF⟩,
    ⟨.insert,    0x2000, 0xF0FF⟩,
    ⟨.decode,    0x3000, 0xFFFF⟩,
    ⟨.encode,    0x4000, 0xFFFF⟩,
    ⟨.parse,     0x5000, 0xF0FF⟩,
    ⟨.update,    0x6000, 0xFFFF⟩,
    ⟨.reset,     0x7000, 0xFFFF⟩,
    ⟨.getid,     0x8000, 0xFFFF⟩,
    ⟨.getperiod, 0x9000, 0xFFFF⟩,
    ⟨.stage,     0xA000, 0xFF00⟩,
    ⟨.rdstate,   0xB000, 0xFFFF⟩,
    ⟨.rdstatus,  0xC000, 0xFFFF⟩ ]

/-- `h AND mask = match` (30_encoding R60). -/
def OpRow.selects (r : OpRow) (h : Header) : Bool := h &&& r.mask == r.pattern

/-- The row a header selects, if any (30_encoding R60). -/
def selectRow (h : Header) : Option Mnemonic := (opcodeTable.find? (·.selects h)).map (·.mnemonic)

/-- EXTRACT and INSERT, whose FLEN is the size of an eight-lane frame (30_encoding R69 step 4). -/
def Mnemonic.hasFrameSize : Mnemonic → Bool
  | .extract | .insert => true
  | .decode | .encode | .parse | .update | .reset | .getid | .getperiod | .stage | .rdstate | .rdstatus => false

/-- The pure commands, which examine `cmd_desc` (30_encoding R59, R69 step 5). -/
def Mnemonic.isPure : Mnemonic → Bool
  | .extract | .insert | .decode | .encode => true
  | .parse | .update | .reset | .getid | .getperiod | .stage | .rdstate | .rdstatus => false

/-- The operands each command examines, taken from the record (30_encoding R61, R65). -/
def operandsOf (m : Mnemonic) (c : Command) : Instr :=
  match m with
  | .extract   => .extract (hdrFlen c.hdr) (ctlStart c.desc) (ctlLen c.desc) (ctlOrder c.desc) (ctlSigned c.desc) c.frame
  | .insert    => .insert (hdrFlen c.hdr) (ctlStart c.desc) (ctlLen c.desc) (ctlOrder c.desc) (BitVec.ofInt 64 c.val) c.frame
  | .decode    => .decode (BitVec.ofInt 64 c.val) (ctlSigned c.desc) c.scale c.offset
  | .encode    => .encode c.val c.scale c.offset (ctlLen c.desc) (ctlSigned c.desc) c.min c.max
  | .parse     => .parse (hdrFlen c.hdr) c.frame
  | .update    => .update
  | .reset     => .reset
  | .getid     => .getid
  | .getperiod => .getperiod
  | .stage     => .stage (hdrIdx c.hdr) c.val
  | .rdstate   => .rdstate
  | .rdstatus  => .rdstatus

/-- Steps 3, 4 and 5 of the decode procedure, in that order (30_encoding R69). Steps 1 and 2 look at the phase and
stand in the machine. -/
def decode (c : Command) : Except Illegal Instr :=
  match selectRow c.hdr with
  | none => .error .noRow
  | some m =>
    if m.hasFrameSize && decide (8 < (hdrFlen c.hdr).toNat) then .error .frameSize
    else if m.isPure && descReserved c.desc != 0 then .error .reservedDesc
    else .ok (operandsOf m c)

/-! ## The encoder -/

/-- OPC, `cmd_hdr[15:12]` (30_encoding R60). -/
def Mnemonic.opc : Mnemonic → BitVec 4
  | .extract   => 0x1
  | .insert    => 0x2
  | .decode    => 0x3
  | .encode    => 0x4
  | .parse     => 0x5
  | .update    => 0x6
  | .reset     => 0x7
  | .getid     => 0x8
  | .getperiod => 0x9
  | .stage     => 0xA
  | .rdstate   => 0xB
  | .rdstatus  => 0xC

/-- OPC, FLEN and IDX side by side (30_encoding R59). -/
def encodeHeader (m : Mnemonic) (flen : BitVec 4) (idx : BitVec 8) : Header := m.opc ++ flen ++ idx

def ByteOrder.bit : ByteOrder → BitVec 1
  | .intel    => 0
  | .motorola => 1

/-- The control word of a pure command: bits [31:18] zero (30_encoding R63, R64). -/
def encodeDesc (start len : BitVec 8) (order : ByteOrder) (signed : Bool) : CtlWord :=
  0#14 ++ BitVec.ofBool signed ++ order.bit ++ len ++ start

/-- A command with the given header whose every operand field is zero. -/
def Command.bare (h : Header) : Command := ⟨h, 0, 0, 0, 0, 0, 0, 0⟩

/-- The record of a command; fields and bits it does not examine are zero (30_encoding R59 to R65). -/
def encode : Instr → Command
  | .extract flen start len order signed frame =>
      { Command.bare (encodeHeader .extract flen 0) with desc := encodeDesc start len order signed, frame := frame }
  | .insert flen start len order value frame =>
      { Command.bare (encodeHeader .insert flen 0) with
        desc := encodeDesc start len order false, val := value.toNat, frame := frame }
  | .decode raw signed scale offset =>
      { Command.bare (encodeHeader .decode 0 0) with
        desc := encodeDesc 0 0 .intel signed, val := raw.toNat, scale := scale, offset := offset }
  | .encode eng scale offset len signed min max =>
      { hdr := encodeHeader .encode 0 0, desc := encodeDesc 0 len .intel signed, frame := 0, val := eng,
        scale := scale, offset := offset, min := min, max := max }
  | .parse flen frame => { Command.bare (encodeHeader .parse flen 0) with frame := frame }
  | .update    => Command.bare (encodeHeader .update 0 0)
  | .reset     => Command.bare (encodeHeader .reset 0 0)
  | .getid     => Command.bare (encodeHeader .getid 0 0)
  | .getperiod => Command.bare (encodeHeader .getperiod 0 0)
  | .stage idx eng => { Command.bare (encodeHeader .stage 0 idx) with val := eng }
  | .rdstate   => Command.bare (encodeHeader .rdstate 0 0)
  | .rdstatus  => Command.bare (encodeHeader .rdstatus 0 0)

/-- The mnemonic of a command. -/
def Instr.mnemonic : Instr → Mnemonic
  | .extract _ _ _ _ _ _  => .extract
  | .insert _ _ _ _ _ _   => .insert
  | .decode _ _ _ _       => .decode
  | .encode _ _ _ _ _ _ _ => .encode
  | .parse _ _            => .parse
  | .update               => .update
  | .reset                => .reset
  | .getid                => .getid
  | .getperiod            => .getperiod
  | .stage _ _            => .stage
  | .rdstate              => .rdstate
  | .rdstatus             => .rdstatus

/-! ## Commands as one word

DESIGN CHOICE (log 4): the spec presents the eight fields on eight ports. As one number the header stands in bits
15..0, as spec/opcode_table.json numbers it, and the operand fields follow in the order of 30_encoding R59: desc
47..16, frame 111..48, val 239..112, scale 271..240, offset 303..272, min 431..304, max 559..432, at the widths
W_COEF = 32 and W_ENG = 128 of the spec. -/

def Command.ofWord (w : Nat) : Command where
  hdr    := BitVec.ofNat 16 w
  desc   := BitVec.ofNat 32 (w >>> 16)
  frame  := BitVec.ofNat 64 (w >>> 48)
  val    := (BitVec.ofNat 128 (w >>> 112)).toInt
  scale  := (BitVec.ofNat 32 (w >>> 240)).toInt
  offset := (BitVec.ofNat 32 (w >>> 272)).toInt
  min    := (BitVec.ofNat 128 (w >>> 304)).toInt
  max    := (BitVec.ofNat 128 (w >>> 432)).toInt

def Command.toWord (c : Command) : Nat :=
  (BitVec.ofInt 128 c.max ++ BitVec.ofInt 128 c.min ++ BitVec.ofInt 32 c.offset ++ BitVec.ofInt 32 c.scale ++
    BitVec.ofInt 128 c.val ++ c.frame ++ c.desc ++ c.hdr).toNat

/-- The command whose lowest `nbits` bits are those of `w` and whose other bits are zero. -/
def Command.ofTableWord (nbits w : Nat) : Command := Command.ofWord (w % 2 ^ nbits)

/-- The instruction the decoder reads from a word numbered as spec/opcode_table.json numbers it. -/
def decodeTableWord (nbits w : Nat) : Option Instr := (decode (Command.ofTableWord nbits w)).toOption

end Sys2Proof
end

