-- ==== Sys2Proof/Machine/State.lean ====
section
/-! DEFINITION. Everything the spec gives one instance of the block (spec/10_state.md), its interface, and its state
right after the reset sequence (spec/10_state.md R33). -/

namespace Sys2Proof.Machine

/-- STATUS.PHASE (10_state R24, R26). -/
inductive Phase
  | constructed
  | ready
  | fatal
deriving DecidableEq, Repr

/-- STATUS.FCAUSE (60_exceptions R142). `noFatal` is the spec's NONE. -/
inductive Cause
  | noFatal
  | lenZero
  | range
  | overlap
  | scaleZero
  | limitOrder
  | rsvd
  | geometry
  | lenWide
deriving DecidableEq, Repr

/-- STATUS (10_state R24). Its 16-bit word, with bit 3 reading 0, is `Status.word` in Machine/Flags.lean. -/
structure Status where
  phase    : Phase
  logShort : Bool
  fcause   : Cause
  fidx     : BitVec 8
deriving DecidableEq, Repr

/-- `rsp_status` (30_encoding R67). -/
inductive RspStatus
  | ok
  | short
  | illegal
  | badIdx
  | fatalNow
  | fatal
deriving DecidableEq, Repr

/-- The response record (30_encoding R66). -/
structure Response where
  status : RspStatus
  data   : Eng
  frame  : Frame
  flen   : BitVec 4
deriving DecidableEq, Repr

/-- What the outside world does to the block in one step (10_state R34). -/
inductive Input
  /-- A command is accepted and runs to its response. -/
  | command (c : Command)
  /-- `rst` is pulsed with no command in flight (70_reset_and_hazards R162). -/
  | rst
  /-- `rst` is pulsed while this command is in flight: the command is dropped (70_reset_and_hazards R165). -/
  | rstDuring (c : Command)
deriving DecidableEq, Repr

/-- A register file as plain data: its (index, value) pairs, with strictly rising indices. An index that is not
listed is a register that does not exist (CMD) or that nothing has written (CD). -/
abbrev RegFile := List (Nat × Eng)

/-- The canonical form of a register file: strictly rising indices. -/
abbrev RegFile.Wf (r : RegFile) : Prop := List.Pairwise (fun a b => a.1 < b.1) r

structure State where
  /-- The configuration constants (10_state R13 a). No step changes them (log 1). -/
  cfg      : CodecConfig
  /-- CS[0..7], the Codec State (10_state R22). -/
  cs       : Frame
  /-- CMD[k] for each writable k (10_state R21). -/
  cmd      : RegFile
  /-- STATUS (10_state R24). -/
  status   : Status
  /-- CD, external: the entries written so far (10_state R30, log 8). -/
  cd       : RegFile
  /-- The events still to come, in the order of acceptance (20_memory R50, log 3). -/
  port     : List Input
  /-- The response of the last step, if it gave one (10_state R34, log 12). -/
  rsp      : Option Response
  /-- The writes of the last step on the `cd` port, in order (10_state R34, log 12). -/
  cdPulses : List (Nat × Eng)
  /-- The model's own counter: how many free values have been drawn (log 6, log 7). -/
  draws    : Nat
deriving DecidableEq, Repr

inductive Fault
  /-- Raised by every meaning asked of a state in phase CONSTRUCTED: during the reset sequence the block accepts no
  command (70_reset_and_hazards R162, R164; 93_implementation_defined U13: "a model faults one that is"). `step`
  never raises it. Safe. -/
  | commandInReset
deriving DecidableEq, Repr

inductive Refusal
  /-- Raised by an arm of exec whose instruction has no meaning yet. Safe. No arm of this model raises it. -/
  | notModelled (mnemonic : String)
deriving DecidableEq, Repr

/-- What a meaning answers. -/
abbrev Result := Host.Outcome State Fault Refusal

/-- The state after the reset sequence has run with a valid configuration (10_state R33), for the example instance X1
(log 2): CS = DEF_BYTES, CMD[k] = DEF_CMD[k] for the writable k, STATUS = 0x0001, CD without values. -/
def State.reset : State where
  cfg      := Config.x1
  cs       := 0x0000002800000000
  cmd      := [(0, 0), (1, 0), (2, 0), (4, 0)]
  status   := { phase := .ready, logShort := false, fcause := .noFatal, fidx := 0 }
  cd       := []
  port     := []
  rsp      := none
  cdPulses := []
  draws    := 0

end Sys2Proof.Machine
end

