-- ==== Sys2Proof/Machine/Flags.lean ====
section
/-! DEFINITION. STATUS as software reads it, its one flag LOG_SHORT, the codes of its fields, and the level outputs
derived from it (spec/10_state.md R24, R27, R34; spec/30_encoding.md R67; spec/60_exceptions.md R142, R149). -/

namespace Sys2Proof.Machine

/-- The code of PHASE; 3 is never produced (10_state R24). -/
def Phase.code : Phase → BitVec 2
  | .constructed => 0
  | .ready       => 1
  | .fatal       => 2

/-- The code of FCAUSE; 9 to 15 are never produced (60_exceptions R142). -/
def Cause.code : Cause → BitVec 4
  | .noFatal    => 0
  | .lenZero    => 1
  | .range      => 2
  | .overlap    => 3
  | .scaleZero  => 4
  | .limitOrder => 5
  | .rsvd       => 6
  | .geometry   => 7
  | .lenWide    => 8

/-- The code of `rsp_status`; 6 to 15 are never produced (30_encoding R67). -/
def RspStatus.code : RspStatus → BitVec 4
  | .ok       => 0
  | .short    => 1
  | .illegal  => 2
  | .badIdx   => 3
  | .fatalNow => 4
  | .fatal    => 5

/-- STATUS as a 16-bit word: FIDX, FCAUSE, the reserved bit that reads 0, LOG_SHORT, PHASE (10_state R24). -/
def Status.word (st : Status) : BitVec 16 :=
  st.fidx ++ st.fcause.code ++ 0#1 ++ BitVec.ofBool st.logShort ++ st.phase.code

/-- LOG_SHORT <- 1, the one effect of a skipped PARSE on STATUS (10_state R27, 42_codec R125). -/
def Status.setLogShort (st : Status) : Status := { st with logShort := true }

/-- STATUS as the reset sequence first leaves it (70_reset_and_hazards R162). -/
def Status.cleared : Status := { phase := .constructed, logShort := false, fcause := .noFatal, fidx := 0 }

/-- STATUS after `raise Fatal(cause, idx)`: LOG_SHORT keeps its value (60_exceptions R141). -/
def Status.raise (st : Status) (cause : Cause) (idx : BitVec 8) : Status :=
  { st with phase := .fatal, fcause := cause, fidx := idx }

/-- The output `fatal`: 1 exactly when PHASE = FATAL (10_state R34). -/
def State.fatalPin (s : State) : Bool := s.status.phase == .fatal

/-- The output `log_short` (10_state R34). -/
def State.logShortPin (s : State) : Bool := s.status.logShort

/-- The output `cmd_ready` between two steps: no command is in flight there, and only during the reset sequence is
none accepted (10_state R34, 70_reset_and_hazards R162). -/
def State.cmdReady (s : State) : Bool := s.status.phase != .constructed

end Sys2Proof.Machine
end

