-- ==== Sys2Proof/Machine/Operands.lean ====
section
/-! DEFINITION. Patterns of a given width (spec/00_scope.md R7), the one operand form of the block, a field of a frame
(spec/20_memory.md R40 to R49, spec/40_bitfield.md R82, R83, R87), and the fields of a configured descriptor
(spec/10_state.md R19). -/

namespace Sys2Proof

/-! ## Patterns of a given width (00_scope R7) -/

/-- The low `n` bits of `v` read in two's complement and widened to 64 bits: `sext_64(v[n-1:0])`. -/
abbrev sextLow (n : Nat) (v : Raw) : Raw := (v.setWidth n).signExtend 64

/-- The low `n` bits of `v`, the rest zero: `zext_64(v[n-1:0])`. -/
abbrev zextLow (n : Nat) (v : Raw) : Raw := (v.setWidth n).setWidth 64

/-- `sint_w(tc_w(z))`: the integer that the `w`-bit two's complement pattern of `z` stands for. -/
def sint (w : Nat) (z : Int) : Int := (BitVec.ofInt w z).toInt

end Sys2Proof

namespace Sys2Proof.Machine

/-! ## Frames -/

/-- Byte `b` of a frame (20_memory R41). -/
def frameByte (F : Frame) (b : Nat) : Byte := F.extractLsb' (8 * b) 8

/-- `F[b][j]`, bit `j` of byte `b` (00_scope R8, 20_memory R41). -/
def frameBit (F : Frame) (p : Nat × Nat) : Bool := F.getLsbD (8 * p.1 + p.2)

/-- `F[b][j] <- v`. -/
def setFrameBit (F : Frame) (p : Nat × Nat) (v : Bool) : Frame :=
  if v then F ||| BitVec.twoPow 64 (8 * p.1 + p.2) else F &&& ~~~(BitVec.twoPow 64 (8 * p.1 + p.2))

/-- `LEword(F, n)`: byte 0 least significant (00_scope R8). -/
def leWord (F : Frame) : Nat → Nat
  | 0     => 0
  | n + 1 => leWord F n + (frameByte F n).toNat * 2 ^ (8 * n)

/-- `BEword(F, n)`: byte 0 most significant (00_scope R8). -/
def beWord (F : Frame) : Nat → Nat
  | 0     => 0
  | n + 1 => beWord F n * 256 + (frameByte F n).toNat

/-! ## Fields -/

/-- `FieldBit(order, start, len, i)`: the byte and bit that hold bit `i` of a field (20_memory R44). -/
def fieldBit (order : ByteOrder) (start len i : Nat) : Nat × Nat :=
  match order with
  | .intel    => ((start + i) / 8, (start + i) % 8)
  | .motorola => ((start + (len - 1 - i)) / 8, 7 - (start + (len - 1 - i)) % 8)

/-- `BitSet(order, start, len)` (20_memory R45). -/
def bitSet (order : ByteOrder) (start len : Nat) : List (Nat × Nat) :=
  (List.range len).map (fieldBit order start len)

/-- `CheckField(n, start, len)`: the cause it raises, if any, LEN_ZERO before RANGE (40_bitfield R82). -/
def checkField (n start len : Nat) : Option Cause :=
  if len < 1 then some .lenZero
  else if 8 * n < start + len then some .range
  else none

/-- The sum of the field's bits 0 to `k - 1` at their weights, the loop of ExtractField (40_bitfield R83). -/
def fieldSum (F : Frame) (order : ByteOrder) (start len : Nat) : Nat → Nat
  | 0     => 0
  | i + 1 => fieldSum F order start len i + (frameBit F (fieldBit order start len i)).toNat * 2 ^ i

/-- `ExtractField` after its check: the unsigned value of the field, extended to 64 bits by `signed`
(40_bitfield R83). -/
def extractField (F : Frame) (start len : Nat) (order : ByteOrder) (signed : Bool) : Raw :=
  if signed && decide (2 ^ (len - 1) ≤ fieldSum F order start len len) then
    BitVec.ofInt 64 ((fieldSum F order start len len : Int) - 2 ^ len)
  else BitVec.ofNat 64 (fieldSum F order start len len)

/-- The first `k` turns of InsertField's loop (40_bitfield R87). -/
def insertBits (F : Frame) (order : ByteOrder) (start len : Nat) (value : Raw) : Nat → Frame
  | 0     => F
  | i + 1 => setFrameBit (insertBits F order start len value i) (fieldBit order start len i) (value.getLsbD i)

/-- `InsertField` after its check: the low `len` bits of `value` replace the field, every other bit of the eight
lanes stays (40_bitfield R86, R87). -/
def insertField (F : Frame) (start len : Nat) (order : ByteOrder) (value : Raw) : Frame :=
  insertBits F order start len value len

end Sys2Proof.Machine

namespace Sys2Proof

/-! ## Configured descriptors (10_state R18, R19) -/

def Desc.start (d : Desc) : Nat := (ctlStart d.ctl).toNat
def Desc.len (d : Desc) : Nat := (ctlLen d.ctl).toNat
def Desc.order (d : Desc) : ByteOrder := ctlOrder d.ctl
def Desc.signed (d : Desc) : Bool := ctlSigned d.ctl
def Desc.wr (d : Desc) : Bool := ctlWr d.ctl
def Desc.ovl (d : Desc) : Bool := ctlOvl d.ctl

/-- The bit set of a configured descriptor (20_memory R45). -/
def Desc.bits (d : Desc) : List (Nat × Nat) := Machine.bitSet d.order d.start d.len

/-- Two descriptors overlap when their bit sets share a pair (10_state R29, 20_memory R45). -/
def Desc.overlaps (d e : Desc) : Bool := d.bits.any (e.bits.contains ·)

/-- NSIG (10_state R18). -/
def CodecConfig.nsig (c : CodecConfig) : Nat := c.descs.length

/-- DESC[k] exists and is writable: the condition under which CMD[k] exists (10_state R21). -/
def CodecConfig.writable (c : CodecConfig) (k : Nat) : Bool := (c.descs[k]?).any Desc.wr

end Sys2Proof
end

