-- ==== Sys2Proof/Machine/Scaler.lean ====
section
/-! DEFINITION. The fixed-point scaler (spec/41_transform.md): exact integer arithmetic, one rounding, two saturating
stages, with the open parameters of spec/00_scope.md R6 as arguments. -/

namespace Sys2Proof.Machine

/-- `rawInt`: the pattern read by its SIGNED bit (41_transform R94, R105). -/
def rawInt (raw : Raw) (signed : Bool) : Int := if signed then raw.toInt else raw.toNat

/-- `DecodeValue(raw, signed, S, O)` (41_transform R94). -/
def decodeValue (raw : Raw) (signed : Bool) (S O : Int) : Int := rawInt raw signed * S + O

/-- The two branches of round_haz once the divisor is positive (41_transform R97). -/
def roundPos (n d : Int) : Int :=
  if 0 ≤ n then (2 * n + d) / (2 * d) else -((-2 * n + d) / (2 * d))

/-- `round_haz(n, d)`: the integer nearest to n/d, ties away from zero (41_transform R97). -/
def roundHaz (n d : Int) : Int := if d < 0 then roundPos (-n) (-d) else roundPos n d

/-- The integer nearest to n/d, ties to the even one, for a positive divisor. -/
def roundEvenPos (n d : Int) : Int :=
  if 2 * (n % d) < d then n / d
  else if d < 2 * (n % d) then n / d + 1
  else if n / d % 2 = 0 then n / d else n / d + 1

/-- The rounding that the parameter ROUND names (00_scope R6, 92_eei_decisions D3): `round_haz`, or another rule
(log 10). -/
def roundBy (r : RoundRule) (n d : Int) : Int :=
  match r with
  | .halfAway   => roundHaz n d
  | .halfEven   => if d < 0 then roundEvenPos (-n) (-d) else roundEvenPos n d
  | .towardZero => n.tdiv d
  | .other      => Config.otherRound n d

/-- `clamp(v, lo, hi)` (00_scope R10). -/
def clamp (v lo hi : Int) : Int := if v < lo then lo else if hi < v then hi else v

/-- The lower end of `FieldRange(len, signed)`: for a signed field that which the parameter SIGNED_CLAMP names
(41_transform R100, 92_eei_decisions D4). -/
def fieldLo (c : SignedClamp) (len : Nat) (signed : Bool) : Int :=
  if signed then
    match c with
    | .symmetric      => -(2 ^ (len - 1) - 1)
    | .twosComplement => -(2 ^ (len - 1))
  else 0

/-- The upper end of `FieldRange(len, signed)` (41_transform R100). -/
def fieldHi (len : Nat) (signed : Bool) : Int := if signed then 2 ^ (len - 1) - 1 else 2 ^ len - 1

/-- The four tests of EncodeValue, in their order (41_transform R98). -/
def checkEncode (S : Int) (len : Nat) (MIN MAX : Int) : Option Cause :=
  if len < 1 then some .lenZero
  else if 64 < len then some .lenWide
  else if S = 0 then some .scaleZero
  else if MAX < MIN then some .limitOrder
  else none

/-- The saturated integer of EncodeValue: limit, subtract, divide and round, saturate (41_transform R98, R102). -/
def encodeInt (p : Params) (E S O : Int) (len : Nat) (signed : Bool) (MIN MAX : Int) : Int :=
  clamp (roundBy p.round (clamp E MIN MAX - O) S) (fieldLo p.signedClamp len signed) (fieldHi len signed)

/-- `EncodeValue` after its tests: the 64-bit pattern `tc_64(rc)` (41_transform R98). -/
def encodeValue (p : Params) (E S O : Int) (len : Nat) (signed : Bool) (MIN MAX : Int) : Raw :=
  BitVec.ofInt 64 (encodeInt p E S O len signed MIN MAX)

/-- What PARSE writes for a descriptor: `tc_W_ENG(DecodeValue(ExtractField(...)))` (42_codec R124). -/
def decodeSignal (p : Params) (d : Desc) (F : Frame) : Eng :=
  sint p.wEng (decodeValue (extractField F d.start d.len d.order d.signed) d.signed d.scale d.offset)

/-- What UPDATE inserts for a descriptor: `EncodeValue(x[k], ...)` (42_codec R127). -/
def encodeSignal (p : Params) (d : Desc) (e : Eng) : Raw :=
  encodeValue p e d.scale d.offset d.len d.signed d.min d.max

end Sys2Proof.Machine
end

