-- ==== Sys2Proof/Machine/Ops.lean ====
section
/-! DEFINITION. The shared operations: register files, responses and refusals (spec/60_exceptions.md R139), the fatal
outcome (R141) and, beside it, the only way back from it: the reset sequence (R146; spec/70_reset_and_hazards.md R162)
with its construction checks (R163). -/

namespace Sys2Proof.Machine

/-! ## Register files (CMD and CD) -/

/-- The value at index `k`, if the file lists one. -/
def RegFile.read (r : RegFile) (k : Nat) : Option Eng := (r.find? fun e => e.1 == k).map (·.2)

/-- Write `v` at index `k`, keeping the indices rising. -/
def RegFile.write (k : Nat) (v : Eng) : RegFile → RegFile
  | []          => [(k, v)]
  | (j, w) :: r => if k < j then (k, v) :: (j, w) :: r else if k = j then (k, v) :: r else (j, w) :: write k v r

/-- Writes in order, the later ones last. -/
def RegFile.writeAll (r : RegFile) (ws : List (Nat × Eng)) : RegFile := ws.foldl (fun r w => r.write w.1 w.2) r

/-- `x[k]`, the read of CMD[k] (00_scope R10). A register that does not exist reads as a free value; no run reaches
that (log 9). -/
def State.readCmd (s : State) (k : Nat) : Eng := (s.cmd.read k).getD (sint s.cfg.par.wEng (Config.freeCmd s.draws k))

/-! ## Responses -/

/-- A response with zero payload (30_encoding R66). -/
def Response.bare (status : RspStatus) : Response := ⟨status, 0, 0, 0⟩

/-- ST_OK with `rsp_data` (30_encoding R66). -/
def Response.okData (v : Eng) : Response := ⟨.ok, v, 0, 0⟩

/-- ST_OK with `rsp_frame` and `rsp_flen` (30_encoding R66). -/
def Response.okFrame (F : Frame) (flen : BitVec 4) : Response := ⟨.ok, 0, F, flen⟩

/-- The command ends with this response; the `cd` port is quiet. -/
def State.respond (s : State) (r : Response) : State := { s with rsp := some r, cdPulses := [] }

/-- A step that answers no command: no response, the `cd` port quiet. -/
def State.quiet (s : State) : State := { s with rsp := none, cdPulses := [] }

/-- `refuse(status)`: zero payload, nothing else changes (60_exceptions R139). -/
def State.refuse (s : State) (status : RspStatus) : State := s.respond (Response.bare status)

/-- The phase check in front of every command but RDSTATUS: READY executes, FATAL refuses with ST_FATAL
(30_encoding R69 step 2, 42_codec R119, 60_exceptions R143), CONSTRUCTED accepts no command (log 5). -/
def whenReady (s t : State) : Result :=
  match s.status.phase with
  | .ready       => .next t
  | .fatal       => .next (s.refuse .fatal)
  | .constructed => .fault .commandInReset

/-! ## The fatal outcome -/

/-- `raise Fatal(cause, idx)`: three writes of STATUS, nothing else (60_exceptions R141, R145). -/
def State.raiseFatal (s : State) (cause : Cause) (idx : BitVec 8) : State :=
  { s with status := s.status.raise cause idx }

/-- A pure command raises Fatal on its own operands: FIDX = 0xFF and response ST_FATAL_NOW with zero payload
(60_exceptions R141, R142). -/
def State.fatalNow (s : State) (cause : Cause) : State := (s.raiseFatal cause 0xFF).refuse .fatalNow

/-! ## Defaults -/

/-- The writable rows of the table with their index, in index order. -/
def writableRows (c : CodecConfig) : List (Desc × Nat) := c.descs.zipIdx.filter (·.1.wr)

/-- The register file in which every CMD[k] that exists holds `f d k`. -/
def cmdFile (c : CodecConfig) (f : Desc → Nat → Eng) : RegFile := (writableRows c).map fun p => (p.2, f p.1 p.2)

/-- The body of RESET: CS <- DEF_BYTES, CMD[k] <- DEF_CMD[k] for every writable k (42_codec R129,
70_reset_and_hazards R162). CMD has no other register (10_state R21), so the whole file is rewritten. -/
def State.loadDefaults (s : State) : State :=
  { s with cs := s.cfg.defBytes, cmd := cmdFile s.cfg fun d _ => d.defCmd }

/-! ## Construction -/

/-- Step 2 f: descriptor `d` shares a bit with an earlier one and neither declares it (70_reset_and_hazards R163). -/
def clashes (earlier : List Desc) (d : Desc) : Bool := earlier.any fun e => !d.ovl && !e.ovl && d.overlaps e

/-- Steps 2 a to 2 f for one descriptor, in that order (70_reset_and_hazards R163). -/
def checkDesc (dlen : Nat) (earlier : List Desc) (d : Desc) : Option Cause :=
  if ctlReserved d.ctl ≠ 0 then some .rsvd
  else if d.len < 1 then some .lenZero
  else if 8 * dlen < d.start + d.len then some .range
  else if d.scale = 0 then some .scaleZero
  else if d.max < d.min then some .limitOrder
  else if clashes earlier d then some .overlap
  else none

/-- Step 2: the descriptors in index order from index `k` on, `earlier` being those below it
(70_reset_and_hazards R163). -/
def checkDescs (dlen : Nat) (earlier : List Desc) (k : Nat) : List Desc → Option (Cause × BitVec 8)
  | []     => none
  | d :: r =>
    match checkDesc dlen earlier d with
    | some c => some (c, BitVec.ofNat 8 k)
    | none   => checkDescs dlen (earlier ++ [d]) (k + 1) r

/-- The construction checks: the first that fails, or none (70_reset_and_hazards R163). -/
def constructionCheck (c : CodecConfig) : Option (Cause × BitVec 8) :=
  if c.dlen.toNat = 0 ∨ 8 < c.dlen.toNat ∨ 255 < c.nsig then some (.geometry, 0xFF)
  else checkDescs c.dlen.toNat [] 0 c.descs

/-- The start of the reset sequence: STATUS cleared, PHASE = CONSTRUCTED (70_reset_and_hazards R162). -/
def State.enterConstructed (s : State) : State := { s.quiet with status := Status.cleared }

/-- The rest of the reset sequence: the checks, then READY with the defaults loaded, or FATAL with CS and CMD holding
free values (70_reset_and_hazards R162, 10_state R33, log 6). CD is not touched. -/
def State.construct (s : State) : State :=
  match constructionCheck s.cfg with
  | none => { s.loadDefaults with status := { s.status with phase := .ready } }
  | some (cause, idx) =>
    { s.raiseFatal cause idx with
      cs := Config.freeCs s.draws, cmd := cmdFile s.cfg fun _ k => sint s.cfg.par.wEng (Config.freeCmd s.draws k),
      draws := s.draws + 1 }

/-- The reset sequence, as one step taken by the agent `rst` (70_reset_and_hazards R162, log 5). It is the only return
from FATAL (60_exceptions R146). -/
def State.resetSequence (s : State) : State := s.enterConstructed.construct

end Sys2Proof.Machine
end

