-- ==== Sys2Proof/Machine/BitField.lean ====
section
/-! DEFINITION. EXTRACT and INSERT, the BitField Accessor's commands (spec/40_bitfield.md R84, R88). -/

namespace Sys2Proof.Machine

/-- What EXTRACT does in READY. FLEN above 8 is refused as the decode procedure refuses it (30_encoding R69 step 4,
log 13). -/
def extractReady (flen : BitVec 4) (start len : BitVec 8) (order : ByteOrder) (signed : Bool) (frame : Frame)
    (s : State) : State :=
  if 8 < flen.toNat then s.refuse .illegal
  else match checkField flen.toNat start.toNat len.toNat with
    | some c => s.fatalNow c
    | none   => s.respond (Response.okData (extractField frame start.toNat len.toNat order signed).toNat)

/-- EXTRACT (40_bitfield R84). -/
def execExtract (flen : BitVec 4) (start len : BitVec 8) (order : ByteOrder) (signed : Bool) (frame : Frame)
    (s : State) : Result :=
  whenReady s (extractReady flen start len order signed frame s)

/-- What INSERT does in READY. FLEN above 8 is refused as the decode procedure refuses it (30_encoding R69 step 4,
log 13). -/
def insertReady (flen : BitVec 4) (start len : BitVec 8) (order : ByteOrder) (value : Raw) (frame : Frame)
    (s : State) : State :=
  if 8 < flen.toNat then s.refuse .illegal
  else match checkField flen.toNat start.toNat len.toNat with
    | some c => s.fatalNow c
    | none   => s.respond (Response.okFrame (insertField frame start.toNat len.toNat order value) flen)

/-- INSERT (40_bitfield R88). -/
def execInsert (flen : BitVec 4) (start len : BitVec 8) (order : ByteOrder) (value : Raw) (frame : Frame)
    (s : State) : Result :=
  whenReady s (insertReady flen start len order value frame s)

end Sys2Proof.Machine
end

