-- ==== Sys2Proof/Machine/Codec.lean ====
section
/-! DEFINITION. The Message Codec's commands (spec/42_codec.md), and what a command leaves behind when `rst` cuts it
(spec/70_reset_and_hazards.md R165). -/

namespace Sys2Proof.Machine

/-! ## PARSE -/

/-- The writes of a full PARSE on the `cd` port, in index order (42_codec R124, R126). -/
def parseWrites (c : CodecConfig) (frame : Frame) : List (Nat × Eng) :=
  c.descs.zipIdx.map fun p => (p.2, decodeSignal c.par p.1 frame)

/-- What PARSE does in READY: a frame shorter than DLEN is skipped and logged (42_codec R125), any other is decoded
whole (42_codec R126). -/
def parseReady (flen : BitVec 4) (frame : Frame) (s : State) : State :=
  if flen.toNat < s.cfg.dlen.toNat then { s.refuse .short with status := s.status.setLogShort }
  else
    { s.respond (Response.bare .ok) with
      cd := s.cd.writeAll (parseWrites s.cfg frame), cdPulses := parseWrites s.cfg frame }

/-- PARSE (42_codec R124). -/
def execParse (flen : BitVec 4) (frame : Frame) (s : State) : Result := whenReady s (parseReady flen frame s)

/-! ## UPDATE -/

/-- One turn of UPDATE's walk: a writable descriptor's field replaced by the encoding of `e` (42_codec R127). -/
def insertSignal (p : Params) (G : Frame) (d : Desc) (e : Eng) : Frame :=
  insertField G d.start d.len d.order (encodeSignal p d e)

/-- UPDATE's walk over the writable descriptors in index order, in place in the frame `G` (42_codec R120, R127). -/
def updateFrame (c : CodecConfig) (x : Nat → Eng) (G : Frame) : Frame :=
  (writableRows c).foldl (fun G p => insertSignal c.par G p.1 (x p.2)) G

/-- What UPDATE does in READY. -/
def updateReady (s : State) : State :=
  { s with cs := updateFrame s.cfg s.readCmd s.cs }.respond
    (Response.okFrame (updateFrame s.cfg s.readCmd s.cs) s.cfg.dlen)

/-- UPDATE (42_codec R127). -/
def execUpdate (s : State) : Result := whenReady s (updateReady s)

/-! ## RESET and STAGE -/

/-- RESET (42_codec R129). STATUS and CD are not written. -/
def execReset (s : State) : Result := whenReady s (s.loadDefaults.respond (Response.bare .ok))

/-- What STAGE does in READY: the W_ENG bits of the value are stored as given, or the index is refused (42_codec R131). -/
def stageReady (idx : BitVec 8) (eng : Eng) (s : State) : State :=
  if s.cfg.writable idx.toNat then
    { s with cmd := s.cmd.write idx.toNat (sint s.cfg.par.wEng eng) }.respond (Response.bare .ok)
  else s.refuse .badIdx

/-- STAGE (42_codec R131). -/
def execStage (idx : BitVec 8) (eng : Eng) (s : State) : Result := whenReady s (stageReady idx eng s)

/-! ## The reads -/

/-- GETID (42_codec R122). -/
def execGetid (s : State) : Result := whenReady s (s.respond (Response.okData s.cfg.id.toNat))

/-- GETPERIOD (42_codec R123). -/
def execGetperiod (s : State) : Result := whenReady s (s.respond (Response.okData s.cfg.period.toNat))

/-- RDSTATE (42_codec R133). -/
def execRdstate (s : State) : Result := whenReady s (s.respond (Response.okFrame s.cs s.cfg.dlen))

/-- RDSTATUS, the one command that executes in FATAL as in READY (42_codec R134, 60_exceptions R143). -/
def execRdstatus (s : State) : Result :=
  match s.status.phase with
  | .ready       => .next (s.respond (Response.okData s.status.word.toNat))
  | .fatal       => .next (s.respond (Response.okData s.status.word.toNat))
  | .constructed => .fault .commandInReset

/-! ## A command cut by `rst` -/

/-- The writes to CD that a cut command could have made: those of a full PARSE in READY, none otherwise
(70_reset_and_hazards R165, 10_state R32). -/
def cutWrites (s : State) (c : Command) : List (Nat × Eng) :=
  match s.status.phase, decode c with
  | .ready, .ok (.parse flen frame) => if flen.toNat < s.cfg.dlen.toNat then [] else parseWrites s.cfg frame
  | _, _ => []

/-- Those of them that had happened: each entry as a free value decides (93_implementation_defined U16, log 7). -/
def cutDone (s : State) (c : Command) : List (Nat × Eng) :=
  (cutWrites s c).filter fun w => Config.cutWrote s.draws w.1

/-- `rst` while the command `c` is in flight: the command is dropped without a response, its writes to CD are done or
not, and the reset sequence overwrites CS, CMD and STATUS (70_reset_and_hazards R165). -/
def State.cutByReset (s : State) (c : Command) : State :=
  { State.resetSequence { s with cd := s.cd.writeAll (cutDone s c), draws := s.draws + 1 } with
    cdPulses := cutDone s c }

end Sys2Proof.Machine
end

