-- ==== Sys2Proof/Machine/Transform.lean ====
section
/-! DEFINITION. DECODE and ENCODE, the Signal Transform's commands (spec/41_transform.md R95, R99). -/

namespace Sys2Proof.Machine

/-- What DECODE does in READY: `tc_W_ENG(DecodeValue(..., sint(cmd_scale), sint(cmd_offset)))`. -/
def decodeReady (raw : Raw) (signed : Bool) (scale offset : Coef) (s : State) : State :=
  s.respond (Response.okData (sint s.cfg.par.wEng
    (decodeValue raw signed (sint s.cfg.par.wCoef scale) (sint s.cfg.par.wCoef offset))))

/-- DECODE (41_transform R95). It has no fatal outcome; S = 0 is legal. -/
def execDecode (raw : Raw) (signed : Bool) (scale offset : Coef) (s : State) : Result :=
  whenReady s (decodeReady raw signed scale offset s)

/-- What ENCODE does in READY with the integers its operands stand for. -/
def encodeResult (E S O : Int) (len : Nat) (signed : Bool) (MIN MAX : Int) (s : State) : State :=
  match checkEncode S len MIN MAX with
  | some c => s.fatalNow c
  | none   => s.respond (Response.okData (encodeValue s.cfg.par E S O len signed MIN MAX).toNat)

/-- What ENCODE does in READY: `EncodeValue(sint(cmd_val), sint(cmd_scale), ...)`. -/
def encodeReady (eng : Eng) (scale offset : Coef) (len : BitVec 8) (signed : Bool) (min max : Eng) (s : State) :
    State :=
  encodeResult (sint s.cfg.par.wEng eng) (sint s.cfg.par.wCoef scale) (sint s.cfg.par.wCoef offset) len.toNat signed
    (sint s.cfg.par.wEng min) (sint s.cfg.par.wEng max) s

/-- ENCODE (41_transform R99). -/
def execEncode (eng : Eng) (scale offset : Coef) (len : BitVec 8) (signed : Bool) (min max : Eng) (s : State) :
    Result :=
  whenReady s (encodeReady eng scale offset len signed min max s)

end Sys2Proof.Machine
end

