-- ==== Sys2Proof/Machine/Dispatch.lean ====
section
/-! DEFINITION. One arm per command. -/

namespace Sys2Proof.Machine

def exec (i : Instr) (s : State) : Host.Outcome State Fault Refusal :=
  match i with
  | .extract flen start len order signed frame => Sys2Proof.Machine.execExtract flen start len order signed frame s
  | .insert flen start len order value frame => Sys2Proof.Machine.execInsert flen start len order value frame s
  | .decode raw signed scale offset => Sys2Proof.Machine.execDecode raw signed scale offset s
  | .encode eng scale offset len signed min max => Sys2Proof.Machine.execEncode eng scale offset len signed min max s
  | .parse flen frame => Sys2Proof.Machine.execParse flen frame s
  | .update => Sys2Proof.Machine.execUpdate s
  | .reset => Sys2Proof.Machine.execReset s
  | .getid => Sys2Proof.Machine.execGetid s
  | .getperiod => Sys2Proof.Machine.execGetperiod s
  | .stage idx eng => Sys2Proof.Machine.execStage idx eng s
  | .rdstate => Sys2Proof.Machine.execRdstate s
  | .rdstatus => Sys2Proof.Machine.execRdstatus s

end Sys2Proof.Machine
end

