-- ==== Sys2Proof/Machine/Events.lean ====
section
/-! DEFINITION. What each event of the port does to the block (spec/00_scope.md R12, spec/20_memory.md R50,
spec/30_encoding.md R69). -/

namespace Sys2Proof.Machine

/-- A command the decoder refuses: ST_FATAL in FATAL, ST_ILLEGAL in READY, no state change (30_encoding R69 steps 2 to
5, R70). -/
def execIllegal (s : State) : Result := whenReady s (s.refuse .illegal)

/-- One accepted command: decoded, then executed by its own rule (30_encoding R68, R69). -/
def runCommand (c : Command) (s : State) : Result :=
  match decode c with
  | .ok i    => exec i s
  | .error _ => execIllegal s

/-- The event at the head of the port, `rest` standing behind it. In phase CONSTRUCTED no command is accepted, so none
is in flight either: the reset sequence runs to its end first (70_reset_and_hazards R162). -/
def takeEvent (e : Input) (rest : List Input) (s : State) : Result :=
  match e, s.status.phase with
  | .rst, _                    => .next { s with port := rest }.resetSequence
  | .rstDuring _, .constructed => .next { s with port := rest }.resetSequence
  | .rstDuring c, _            => .next ({ s with port := rest }.cutByReset c)
  | .command _, .constructed   => .next s.quiet.construct
  | .command c, _              => runCommand c { s with port := rest }

/-- With nothing on the port the block starts no action (00_scope R12); a reset sequence runs to its end. -/
def idle (s : State) : State :=
  match s.status.phase with
  | .constructed => s.quiet.construct
  | .ready       => s.quiet
  | .fatal       => s.quiet

end Sys2Proof.Machine
end

