-- ==== Sys2Proof/Machine/Step.lean ====
section
/-! DEFINITION. One step: the block takes the next event of its port, the events in order of acceptance
(spec/20_memory.md R50). -/

namespace Sys2Proof.Machine

def step (s : State) : Host.Outcome State Fault Refusal :=
  match s.port with
  | []        => .next (idle s)
  | e :: rest => takeEvent e rest s

/-- The state in which the given command is the next to be accepted: it stands at the head of the port (log 4). -/
def State.withFetchWord (s : State) (nbits w : Nat) : State :=
  { s with port := .command (Command.ofTableWord nbits w) :: s.port }

end Sys2Proof.Machine
end

