-- ==== Sys2Proof/Safety.lean ====
section
/-! DEFINITION. The terms in which claims about the block are stated: phases, valid configurations, the invariant of
every state a run can reach, and which operand bits a command examines. -/

namespace Sys2Proof

/-- The configuration passes the construction checks (70_reset_and_hazards R163). -/
abbrev CodecConfig.Valid (c : CodecConfig) : Prop := Machine.constructionCheck c = none

/-- What an instance can be built with: W_ENG is wide enough for every decoded value (00_scope R6), and each number of
its table has its register's width (00_scope R9, 10_state R19, R20). -/
structure CodecConfig.Fits (c : CodecConfig) : Prop where
  wEng   : 64 + c.par.wCoef + 1 ≤ c.par.wEng
  scale  : ∀ d ∈ c.descs, sint c.par.wCoef d.scale = d.scale
  offset : ∀ d ∈ c.descs, sint c.par.wCoef d.offset = d.offset
  min    : ∀ d ∈ c.descs, sint c.par.wEng d.min = d.min
  max    : ∀ d ∈ c.descs, sint c.par.wEng d.max = d.max
  defCmd : ∀ d ∈ c.descs, sint c.par.wEng d.defCmd = d.defCmd

/-- Descriptor `d` at index `k` passes the tests a to f of step 2 of 70_reset_and_hazards R163, each said of the fields
and bits it is about. -/
structure CodecConfig.RowOk (c : CodecConfig) (k : Nat) (d : Desc) : Prop where
  reserved : d.ctl.extractLsb' 20 12 = 0
  len      : 1 ≤ d.len
  range    : d.start + d.len ≤ 8 * c.dlen.toNat
  scale    : d.scale ≠ 0
  limits   : d.min ≤ d.max
  apart    : ∀ j e, j < k → c.descs[j]? = some e → d.ovl = true ∨ e.ovl = true ∨ ∀ p ∈ d.bits, p ∉ e.bits

/-- The bit `p` of the frame belongs to a field that UPDATE encodes. -/
abbrev CodecConfig.Covers (c : CodecConfig) (p : Nat × Nat) : Prop := ∃ d ∈ c.descs, d.wr = true ∧ p ∈ d.bits

/-- UPDATE applied to the state after RESET leaves CS equal to DEF_BYTES (70_reset_and_hazards R170). -/
abbrev CodecConfig.DefaultConsistent (c : CodecConfig) : Prop :=
  Machine.updateFrame c (fun k => ((c.descs[k]?).map Desc.defCmd).getD 0) c.defBytes = c.defBytes

namespace Machine

abbrev State.Ready (s : State) : Prop := s.status.phase = .ready

abbrev State.Fatal (s : State) : Prop := s.status.phase = .fatal

/-- What holds of every state a run can reach. -/
structure State.Inv (s : State) : Prop where
  /-- The instance is one that can be built (00_scope R6). -/
  fits        : s.cfg.Fits
  /-- CONSTRUCTED exists only inside the reset sequence (10_state R26). -/
  settled     : s.status.phase ≠ .constructed
  /-- READY is reached only through the construction checks (42_codec R135). -/
  readyValid  : s.Ready → s.cfg.Valid
  /-- No fatal outcome is recorded in READY (10_state R24, R28). -/
  readyClean  : s.Ready → s.status.fcause = .noFatal ∧ s.status.fidx = 0
  /-- FATAL names its cause (60_exceptions R141). -/
  fatalCause  : s.Fatal → s.status.fcause ≠ .noFatal
  /-- CMD is in canonical form. -/
  cmdWf       : s.cmd.Wf
  /-- CMD has one register for each writable descriptor and none else (10_state R21). -/
  cmdKeys     : ∀ k, (s.cmd.read k).isSome = s.cfg.writable k
  /-- Every CMD[k] is a W_ENG-bit value (10_state R21). -/
  cmdFits     : ∀ k v, s.cmd.read k = some v → sint s.cfg.par.wEng v = v
  /-- CD is in canonical form. -/
  cdWf        : s.cd.Wf
  /-- Only entries of this message's descriptors are written (10_state R30). -/
  cdKeys      : ∀ k, (s.cd.read k).isSome = true → k < s.cfg.nsig
  /-- Every CD[k] written is a W_ENG-bit value (10_state R30). -/
  cdFits      : ∀ k v, s.cd.read k = some v → sint s.cfg.par.wEng v = v
  /-- Bits no writable descriptor covers hold DEF_BYTES (42_codec R128 a). -/
  csUncovered : s.Ready → ∀ p : Nat × Nat, p.1 < 8 → p.2 < 8 → ¬ s.cfg.Covers p →
    frameBit s.cs p = frameBit s.cfg.defBytes p

/-- Two records with the same header agree in everything the command examines (30_encoding R61). -/
def examinedEqual (m : Mnemonic) (cfg : CodecConfig) (c c' : Command) : Prop :=
  match m with
  | .extract => c.desc = c'.desc ∧ ∀ b, b < (hdrFlen c.hdr).toNat → frameByte c.frame b = frameByte c'.frame b
  | .insert  =>
    c.desc &&& 0xFFFDFFFF = c'.desc &&& 0xFFFDFFFF ∧ BitVec.ofInt 64 c.val = BitVec.ofInt 64 c'.val ∧ c.frame = c'.frame
  | .decode  =>
    c.desc &&& 0xFFFE0000 = c'.desc &&& 0xFFFE0000 ∧ BitVec.ofInt 64 c.val = BitVec.ofInt 64 c'.val ∧
      sint cfg.par.wCoef c.scale = sint cfg.par.wCoef c'.scale ∧
      sint cfg.par.wCoef c.offset = sint cfg.par.wCoef c'.offset
  | .encode  =>
    c.desc &&& 0xFFFEFF00 = c'.desc &&& 0xFFFEFF00 ∧ sint cfg.par.wEng c.val = sint cfg.par.wEng c'.val ∧
      sint cfg.par.wCoef c.scale = sint cfg.par.wCoef c'.scale ∧
      sint cfg.par.wCoef c.offset = sint cfg.par.wCoef c'.offset ∧
      sint cfg.par.wEng c.min = sint cfg.par.wEng c'.min ∧ sint cfg.par.wEng c.max = sint cfg.par.wEng c'.max
  | .parse   =>
    cfg.dlen.toNat ≤ (hdrFlen c.hdr).toNat → ∀ b, b < cfg.dlen.toNat → frameByte c.frame b = frameByte c'.frame b
  | .stage   => sint cfg.par.wEng c.val = sint cfg.par.wEng c'.val
  | .update | .reset | .getid | .getperiod | .rdstate | .rdstatus => True

end Machine

end Sys2Proof
end

