-- ==== Sys2Proof/Certificates/Slice0/Obligations.lean ====
section
/-! DEFINITION. The statements for the provers. Each docstring names the rule of spec/ it formalises. A next state is
written as an update of the state before, so that the statement is its own frame: every field it does not name is
unchanged. -/

open Sys2Proof Sys2Proof.Machine

/-! ## Encodings (spec/30_encoding.md) -/

/-- 30_encoding R74: the header words of the twelve commands and the control word of its example, written by the encoder
and read by the decoder's fields. -/
def Obligations.HeaderWordsOfTheTwelveCommands : Prop :=
  (encodeHeader .extract 8 0 = 0x1800 ∧ encodeHeader .insert 8 0 = 0x2800 ∧ encodeHeader .decode 0 0 = 0x3000 ∧
    encodeHeader .encode 0 0 = 0x4000 ∧ encodeHeader .parse 8 0 = 0x5800 ∧ encodeHeader .parse 7 0 = 0x5700 ∧
    encodeHeader .update 0 0 = 0x6000 ∧ encodeHeader .reset 0 0 = 0x7000 ∧ encodeHeader .getid 0 0 = 0x8000 ∧
    encodeHeader .getperiod 0 0 = 0x9000 ∧ encodeHeader .stage 0 4 = 0xA004 ∧ encodeHeader .rdstate 0 0 = 0xB000 ∧
    encodeHeader .rdstatus 0 0 = 0xC000 ∧ encodeDesc 20 16 .motorola true = 0x00031014) ∧
  (selectRow 0x1800 = some .extract ∧ hdrFlen 0x1800 = 8 ∧ selectRow 0x2800 = some .insert ∧ hdrFlen 0x2800 = 8 ∧
    selectRow 0x3000 = some .decode ∧ selectRow 0x4000 = some .encode ∧ selectRow 0x5800 = some .parse ∧
    hdrFlen 0x5800 = 8 ∧ selectRow 0x5700 = some .parse ∧ hdrFlen 0x5700 = 7 ∧ selectRow 0x6000 = some .update ∧
    selectRow 0x7000 = some .reset ∧ selectRow 0x8000 = some .getid ∧ selectRow 0x9000 = some .getperiod ∧
    selectRow 0xA004 = some .stage ∧ hdrIdx 0xA004 = 4 ∧ selectRow 0xB000 = some .rdstate ∧
    selectRow 0xC000 = some .rdstatus) ∧
  (ctlStart 0x00031014 = 20 ∧ ctlLen 0x00031014 = 16 ∧ ctlOrder 0x00031014 = .motorola ∧ ctlSigned 0x00031014 = true)

/-- 30_encoding R60: a header selects the row whose masked bits it matches, and no header selects two. -/
def Obligations.OpcodeMapSelectsByMaskAndMatch : Prop :=
  ∀ (h : Header) (m : Mnemonic), selectRow h = some m ↔
    match m with
    | .extract   => h &&& 0xF0FF = 0x1000
    | .insert    => h &&& 0xF0FF = 0x2000
    | .decode    => h &&& 0xFFFF = 0x3000
    | .encode    => h &&& 0xFFFF = 0x4000
    | .parse     => h &&& 0xF0FF = 0x5000
    | .update    => h &&& 0xFFFF = 0x6000
    | .reset     => h &&& 0xFFFF = 0x7000
    | .getid     => h &&& 0xFFFF = 0x8000
    | .getperiod => h &&& 0xFFFF = 0x9000
    | .stage     => h &&& 0xFF00 = 0xA000
    | .rdstate   => h &&& 0xFFFF = 0xB000
    | .rdstatus  => h &&& 0xFFFF = 0xC000

/-- 30_encoding R59, R60, R61, R63, R65: decoding the encoding of a well-formed command gives it back, with every
operand at every value. -/
def Obligations.DecodeOfEncodeIsTheCommand : Prop :=
  ∀ i : Instr, i.WellFormed → decode (encode i) = .ok i

/-- 30_encoding R59, R61, R63, R65: what the decoder reads from a legal record is well-formed and holds every bit of it
that the command examines: encoded again it gives the header and every examined bit back. -/
def Obligations.DecodedCommandKeepsEveryExaminedBit : Prop :=
  ∀ (c : Command) (i : Instr), decode c = .ok i →
    i.WellFormed ∧ (encode i).hdr = c.hdr ∧
    match i with
    | .extract _ _ _ _ _ _  => (encode i).desc = c.desc ∧ (encode i).frame = c.frame
    | .insert _ _ _ _ _ _   =>
        (encode i).desc = c.desc &&& 0xFFFDFFFF ∧ BitVec.ofInt 64 (encode i).val = BitVec.ofInt 64 c.val ∧
          (encode i).frame = c.frame
    | .decode _ _ _ _       =>
        (encode i).desc = c.desc &&& 0xFFFE0000 ∧ BitVec.ofInt 64 (encode i).val = BitVec.ofInt 64 c.val ∧
          (encode i).scale = c.scale ∧ (encode i).offset = c.offset
    | .encode _ _ _ _ _ _ _ =>
        (encode i).desc = c.desc &&& 0xFFFEFF00 ∧ (encode i).val = c.val ∧ (encode i).scale = c.scale ∧
          (encode i).offset = c.offset ∧ (encode i).min = c.min ∧ (encode i).max = c.max
    | .parse _ _            => (encode i).frame = c.frame
    | .stage _ _            => (encode i).val = c.val
    | .update | .reset | .getid | .getperiod | .rdstate | .rdstatus => True

/-- 30_encoding R61: two records with one header that agree in what the command examines have the same outcome in every
state, so that no other bit can matter to result, response or legality. The premise on READY is part of the invariant
that StepKeepsTheInvariant states. -/
def Obligations.UnexaminedBitsHaveNoEffect : Prop :=
  ∀ (s : State) (c c' : Command) (m : Mnemonic), (s.Ready → s.cfg.Valid) → c.hdr = c'.hdr →
    selectRow c.hdr = some m → examinedEqual m s.cfg c c' → runCommand c s = runCommand c' s

/-- 30_encoding R69 step 6, 20_memory R50: a step executes the command at the head of the port and takes it from the
port. The port itself is the model's form (log 3). -/
def Obligations.StepRunsTheDecodedCommand : Prop :=
  ∀ (s : State) (c : Command) (rest : List Input) (i : Instr), s.port = .command c :: rest →
    s.status.phase ≠ .constructed → decode c = .ok i → step s = exec i { s with port := rest }

/-- 30_encoding R69: the decode procedure in its order, and how a command that executes may end. -/
def Obligations.DecodeProcedureInOrder : Prop :=
  (∀ (s : State) (c : Command) (rest : List Input), s.port = .command c :: rest → s.status.phase ≠ .constructed →
    step s =
      if c.hdr = 0xC000 then exec .rdstatus { s with port := rest }
      else if s.status.phase = .fatal then
        .next { s with port := rest, rsp := some ⟨.fatal, 0, 0, 0⟩, cdPulses := [] }
      else match selectRow c.hdr with
        | none => .next { s with port := rest, rsp := some ⟨.illegal, 0, 0, 0⟩, cdPulses := [] }
        | some m =>
          if (m = .extract ∨ m = .insert) ∧ 8 < (c.hdr.extractLsb' 8 4).toNat then
            .next { s with port := rest, rsp := some ⟨.illegal, 0, 0, 0⟩, cdPulses := [] }
          else if (m = .extract ∨ m = .insert ∨ m = .decode ∨ m = .encode) ∧ c.desc.extractLsb' 18 14 ≠ 0 then
            .next { s with port := rest, rsp := some ⟨.illegal, 0, 0, 0⟩, cdPulses := [] }
          else exec (operandsOf m c) { s with port := rest }) ∧
  (∀ (s t : State) (c : Command) (i : Instr), s.Ready → decode c = .ok i → exec i s = .next t →
    ∃ r, t.rsp = some r ∧
      (r.status = .ok ∨
        (r.status = .short ∧ i.mnemonic = .parse) ∨
        (r.status = .badIdx ∧ i.mnemonic = .stage) ∨
        (r.status = .fatalNow ∧ (i.mnemonic = .extract ∨ i.mnemonic = .insert ∨ i.mnemonic = .encode))))

/-- 30_encoding R70: reserved operation codes, headers with a must-be-zero field not zero and the all-zero header select
no row; a command the decoder refuses answers ST_ILLEGAL and changes no register, not even STATUS. -/
def Obligations.ReservedEncodingsAreRefused : Prop :=
  (∀ h : Header, (h.extractLsb' 12 4 = 0x0 ∨ h.extractLsb' 12 4 = 0xD ∨ h.extractLsb' 12 4 = 0xE ∨
      h.extractLsb' 12 4 = 0xF) → selectRow h = none) ∧
  (∀ h : Header, (h.extractLsb' 12 4 = 0x1 ∨ h.extractLsb' 12 4 = 0x2 ∨ h.extractLsb' 12 4 = 0x5) →
      h.extractLsb' 0 8 ≠ 0 → selectRow h = none) ∧
  (∀ h : Header, (h.extractLsb' 12 4 = 0x3 ∨ h.extractLsb' 12 4 = 0x4 ∨ h.extractLsb' 12 4 = 0x6 ∨
      h.extractLsb' 12 4 = 0x7 ∨ h.extractLsb' 12 4 = 0x8 ∨ h.extractLsb' 12 4 = 0x9 ∨ h.extractLsb' 12 4 = 0xB ∨
      h.extractLsb' 12 4 = 0xC) → h.extractLsb' 0 12 ≠ 0 → selectRow h = none) ∧
  (∀ h : Header, h.extractLsb' 12 4 = 0xA → h.extractLsb' 8 4 ≠ 0 → selectRow h = none) ∧
  (∀ (s : State) (c : Command) (e : Illegal) (rest : List Input), s.port = .command c :: rest → s.Ready →
    decode c = .error e → step s = .next { s with port := rest, rsp := some ⟨.illegal, 0, 0, 0⟩, cdPulses := [] })

/-! ## Fields of a frame (spec/20_memory.md, spec/40_bitfield.md) -/

/-- 20_memory R45: the bit set of a field has `len` distinct pairs, inside the frame when the bound holds, at the
positions `start` to `start + len - 1` of its byte order; overlap is sharing a pair. -/
def Obligations.FieldBitsAreDistinctAndInside : Prop :=
  (∀ (order : ByteOrder) (start len : Nat),
    (bitSet order start len).Nodup ∧ (bitSet order start len).length = len ∧
    (∀ n, start + len ≤ 8 * n → ∀ p ∈ bitSet order start len, p.1 < n ∧ p.2 < 8)) ∧
  (∀ (start len : Nat) (p : Nat × Nat),
    (p ∈ bitSet .intel start len ↔ ∃ g, start ≤ g ∧ g < start + len ∧ p = (g / 8, g % 8)) ∧
    (p ∈ bitSet .motorola start len ↔ ∃ g, start ≤ g ∧ g < start + len ∧ p = (g / 8, 7 - g % 8))) ∧
  (∀ d e : Desc, d.overlaps e = true ↔ ∃ p, p ∈ bitSet d.order d.start d.len ∧ p ∈ bitSet e.order e.start e.len)

/-- 20_memory R46: the closed forms of reading a field and of writing one, in both byte orders, as the values of LEword
and BEword. -/
def Obligations.FieldClosedForms : Prop :=
  ∀ (F : Frame) (n start len : Nat) (v : Raw), n ≤ 8 → 1 ≤ len → start + len ≤ 8 * n →
    fieldSum F .intel start len len = leWord F n / 2 ^ start % 2 ^ len ∧
    fieldSum F .motorola start len len = beWord F n / 2 ^ (8 * n - start - len) % 2 ^ len ∧
    leWord (insertField F start len .intel v) n + (leWord F n / 2 ^ start % 2 ^ len) * 2 ^ start =
      leWord F n + (v.toNat % 2 ^ len) * 2 ^ start ∧
    beWord (insertField F start len .motorola v) n +
        (beWord F n / 2 ^ (8 * n - start - len) % 2 ^ len) * 2 ^ (8 * n - start - len) =
      beWord F n + (v.toNat % 2 ^ len) * 2 ^ (8 * n - start - len)

/-- 20_memory R47: the source's worked example, for every frame that begins with the two bytes. -/
def Obligations.WorkedByteOrderExample : Prop :=
  ∀ (s : State) (F : Frame), s.Ready →
    (frameByte F 0 = 0x34 → frameByte F 1 = 0x12 →
      exec (.extract 2 0 16 .intel false F) s = .next { s with rsp := some ⟨.ok, 0x1234, 0, 0⟩, cdPulses := [] }) ∧
    (frameByte F 0 = 0x12 → frameByte F 1 = 0x34 →
      exec (.extract 2 0 16 .motorola false F) s = .next { s with rsp := some ⟨.ok, 0x1234, 0, 0⟩, cdPulses := [] })

/-- 20_memory R48: a one-bit field is the same bit at mirrored positions, and a byte-aligned field has the same bytes
in both orders, read in opposite order of significance. -/
def Obligations.ByteOrdersMirrorEachOther : Prop :=
  (∀ g : Nat, fieldBit .intel g 1 0 = fieldBit .motorola (8 * (g / 8) + 7 - g % 8) 1 0) ∧
  (∀ (F : Frame) (a m b : Nat), a + m ≤ 8 → b < m →
    (extractField F (8 * a) (8 * m) .intel false).extractLsb' (8 * b) 8 = frameByte F (a + b) ∧
    (extractField F (8 * a) (8 * m) .motorola false).extractLsb' (8 * b) 8 = frameByte F (a + (m - 1 - b)))

/-- 40_bitfield R90 (a) to (e): reading after writing, writing after reading, idempotence, disjoint fields commute,
on overlapping fields the later insertion wins and the order matters. -/
def Obligations.FieldReadWriteLaws : Prop :=
  (∀ (F : Frame) (n start len : Nat) (order : ByteOrder) (v : Raw), n ≤ 8 → checkField n start len = none →
    extractField (insertField F start len order v) start len order false = zextLow len v ∧
    extractField (insertField F start len order v) start len order true = sextLow len v ∧
    insertField F start len order (extractField F start len order false) = F ∧
    insertField F start len order (extractField F start len order true) = F ∧
    insertField (insertField F start len order v) start len order v = insertField F start len order v) ∧
  (∀ (F : Frame) (n a la b lb : Nat) (oa ob : ByteOrder) (v w : Raw), n ≤ 8 → checkField n a la = none →
    checkField n b lb = none → (∀ p ∈ bitSet oa a la, p ∉ bitSet ob b lb) →
    insertField (insertField F a la oa v) b lb ob w = insertField (insertField F b lb ob w) a la oa v ∧
    (∀ signed, extractField (insertField F a la oa v) b lb ob signed = extractField F b lb ob signed)) ∧
  (∀ (F : Frame) (n a la b lb i j : Nat) (oa ob : ByteOrder) (v w : Raw), n ≤ 8 → checkField n a la = none →
    checkField n b lb = none → i < la → j < lb → fieldBit oa a la i = fieldBit ob b lb j →
    frameBit (insertField (insertField F a la oa v) b lb ob w) (fieldBit oa a la i) = w.getLsbD j) ∧
  (∃ (F : Frame) (v w : Raw), insertField (insertField F 0 8 .intel v) 4 8 .intel w ≠
    insertField (insertField F 4 8 .intel w) 0 8 .intel v)

/-- 40_bitfield R83, R84, 20_memory R46: EXTRACT in READY inside the bound answers the field's value, by the closed form
over the first FLEN bytes alone, zero- or sign-extended to 64 bits; nothing but the response changes. -/
def Obligations.ExtractCompletes : Prop :=
  ∀ (s : State) (flen : BitVec 4) (start len : BitVec 8) (order : ByteOrder) (signed : Bool) (frame : Frame) (u : Nat),
    s.Ready → flen.toNat ≤ 8 → 1 ≤ len.toNat → start.toNat + len.toNat ≤ 8 * flen.toNat →
    u = (match order with
      | .intel    => leWord frame flen.toNat / 2 ^ start.toNat % 2 ^ len.toNat
      | .motorola => beWord frame flen.toNat / 2 ^ (8 * flen.toNat - start.toNat - len.toNat) % 2 ^ len.toNat) →
    exec (.extract flen start len order signed frame) s =
      .next { s with
        rsp := some ⟨.ok, (if signed = true ∧ 2 ^ (len.toNat - 1) ≤ u then BitVec.ofInt 64 ((u : Int) - 2 ^ len.toNat)
          else BitVec.ofNat 64 u : Raw).toNat, 0, 0⟩,
        cdPulses := [] }

/-- 40_bitfield R85 (a) to (g): the corner cases of EXTRACT. -/
def Obligations.ExtractCornerCases : Prop :=
  (∀ (F : Frame) (signed : Bool), extractField F 0 64 .intel signed = BitVec.ofNat 64 (leWord F 8) ∧
    extractField F 0 64 .motorola signed = BitVec.ofNat 64 (beWord F 8)) ∧
  (∀ (F : Frame) (start : Nat) (order : ByteOrder), start < 64 →
    extractField F start 1 order true =
      (if frameBit F (fieldBit order start 1 0) then 0xFFFFFFFFFFFFFFFF else 0) ∧
    extractField F start 1 order false = (if frameBit F (fieldBit order start 1 0) then 1 else 0)) ∧
  (∀ n start len : Nat, checkField n start len = none ↔ 1 ≤ len ∧ start + len ≤ 8 * n) ∧
  (∀ start len : Nat, checkField 0 start len = if len = 0 then some .lenZero else some .range) ∧
  (∀ n : Nat, n ≤ 8 → checkField n 255 255 = some .range) ∧
  (∀ (s t : State) (flen : BitVec 4) (start len : BitVec 8) (order : ByteOrder) (signed : Bool) (frame : Frame)
    (r : Response), exec (.extract flen start len order signed frame) s = .next t → t.rsp = some r →
    0 ≤ r.data ∧ r.data < 2 ^ 64)

/-- 40_bitfield R86, R87, R88: INSERT in READY inside the bound answers the frame in which the field's bits are the low
`len` bits of the value and every other bit of all eight lanes is as before; nothing but the response changes. -/
def Obligations.InsertCompletes : Prop :=
  ∀ (s : State) (flen : BitVec 4) (start len : BitVec 8) (order : ByteOrder) (value : Raw) (frame : Frame),
    s.Ready → flen.toNat ≤ 8 → 1 ≤ len.toNat → start.toNat + len.toNat ≤ 8 * flen.toNat →
    ∃ G : Frame,
      exec (.insert flen start len order value frame) s =
        .next { s with rsp := some ⟨.ok, 0, G, flen⟩, cdPulses := [] } ∧
      (∀ i, i < len.toNat → frameBit G (fieldBit order start.toNat len.toNat i) = value.getLsbD i) ∧
      (∀ p : Nat × Nat, p.1 < 8 → p.2 < 8 → p ∉ bitSet order start.toNat len.toNat → frameBit G p = frameBit frame p)

/-- 40_bitfield R82, R84, R88, 60_exceptions R141, R142: where EXTRACT and INSERT raise Fatal, which cause comes first,
and that nothing but STATUS and the response changes; FLEN above 8 is refused. -/
def Obligations.FieldCommandsRaiseFatalOnBadBounds : Prop :=
  ∀ (s : State) (flen : BitVec 4) (start len : BitVec 8) (order : ByteOrder) (signed : Bool) (value : Raw)
    (frame : Frame) (i : Instr), s.Ready →
    (i = .extract flen start len order signed frame ∨ i = .insert flen start len order value frame) →
    (8 < flen.toNat → exec i s = .next { s with rsp := some ⟨.illegal, 0, 0, 0⟩, cdPulses := [] }) ∧
    (flen.toNat ≤ 8 → len.toNat = 0 → exec i s = .next { s with
      status := { phase := .fatal, logShort := s.status.logShort, fcause := .lenZero, fidx := 0xFF },
      rsp := some ⟨.fatalNow, 0, 0, 0⟩, cdPulses := [] }) ∧
    (flen.toNat ≤ 8 → 1 ≤ len.toNat → 8 * flen.toNat < start.toNat + len.toNat → exec i s = .next { s with
      status := { phase := .fatal, logShort := s.status.logShort, fcause := .range, fidx := 0xFF },
      rsp := some ⟨.fatalNow, 0, 0, 0⟩, cdPulses := [] })

/-! ## The scaler (spec/41_transform.md) -/

/-- 41_transform R94: DECODE in READY answers exactly `r * S + O`, for every operand value, S = 0 included: it never
clamps, rounds or wraps, and the result lies in a word of W_RAW + W_COEF + 1 bits. S and O are the integers that the
W_COEF bits of the port stand for; the premise on the widths is that of 00_scope R6. -/
def Obligations.DecodeCompletesExactly : Prop :=
  ∀ (s : State) (raw : Raw) (signed : Bool) (scale offset : Coef) (E : Int), s.Ready →
    64 + s.cfg.par.wCoef + 1 ≤ s.cfg.par.wEng →
    E = (if signed = true then raw.toInt else (raw.toNat : Int)) * sint s.cfg.par.wCoef scale +
      sint s.cfg.par.wCoef offset →
    exec (.decode raw signed scale offset) s = .next { s with rsp := some ⟨.ok, E, 0, 0⟩, cdPulses := [] } ∧
      |E| < 2 ^ (64 + s.cfg.par.wCoef)

/-- 41_transform R98, R99, R100, 00_scope R6: ENCODE in READY with legal operands answers the limited, rounded and
saturated integer as a 64-bit pattern, rounded by the instance's rule and saturated to its range; nothing but the
response changes, saturated or not (R104). -/
def Obligations.EncodeCompletes : Prop :=
  ∀ (s : State) (eng : Eng) (scale offset : Coef) (len : BitVec 8) (signed : Bool) (min max : Eng)
    (E S O MIN MAX lo hi : Int), s.Ready →
    E = sint s.cfg.par.wEng eng → S = sint s.cfg.par.wCoef scale → O = sint s.cfg.par.wCoef offset →
    MIN = sint s.cfg.par.wEng min → MAX = sint s.cfg.par.wEng max →
    1 ≤ len.toNat → len.toNat ≤ 64 → S ≠ 0 → MIN ≤ MAX →
    (lo, hi) = (if signed = true then
        (-(2 ^ (len.toNat - 1)) + (if s.cfg.par.signedClamp = .symmetric then 1 else 0), 2 ^ (len.toNat - 1) - 1)
      else (0, 2 ^ len.toNat - 1) : Int × Int) →
    exec (.encode eng scale offset len signed min max) s =
      .next { s with
        rsp := some ⟨.ok, (BitVec.ofInt 64 (clamp (roundBy s.cfg.par.round (clamp E MIN MAX - O) S) lo hi)).toNat, 0, 0⟩,
        cdPulses := [] }

/-- 41_transform R98, R99, 60_exceptions R141, R142: where ENCODE raises Fatal, in the order of its four tests; nothing
but STATUS and the response changes. -/
def Obligations.EncodeRaisesFatalInOrder : Prop :=
  ∀ (s : State) (eng : Eng) (scale offset : Coef) (len : BitVec 8) (signed : Bool) (min max : Eng) (c : Cause)
    (S MIN MAX : Int), s.Ready →
    S = sint s.cfg.par.wCoef scale → MIN = sint s.cfg.par.wEng min → MAX = sint s.cfg.par.wEng max →
    ((c = .lenZero ∧ len.toNat = 0) ∨
      (c = .lenWide ∧ 64 < len.toNat) ∨
      (c = .scaleZero ∧ 1 ≤ len.toNat ∧ len.toNat ≤ 64 ∧ S = 0) ∨
      (c = .limitOrder ∧ 1 ≤ len.toNat ∧ len.toNat ≤ 64 ∧ S ≠ 0 ∧ MAX < MIN)) →
    exec (.encode eng scale offset len signed min max) s = .next { s with
      status := { phase := .fatal, logShort := s.status.logShort, fcause := c, fidx := 0xFF },
      rsp := some ⟨.fatalNow, 0, 0, 0⟩, cdPulses := [] }

/-- 41_transform R97: round_haz is the nearest integer, within one half, ties away from zero, odd in both arguments,
with the rule's own values. -/
def Obligations.RoundingIsToNearestTiesAway : Prop :=
  (∀ n d : Int, d ≠ 0 →
    2 * |roundHaz n d * d - n| ≤ |d| ∧
    (∀ q : Int, |roundHaz n d * d - n| ≤ |q * d - n|) ∧
    (2 * |roundHaz n d * d - n| = |d| → |n| < |roundHaz n d * d|) ∧
    roundHaz (-n) d = -roundHaz n d ∧ roundHaz n (-d) = -roundHaz n d ∧ roundHaz 0 d = 0) ∧
  (roundHaz 5 2 = 3 ∧ roundHaz (-5) 2 = -3 ∧ roundHaz 5 (-2) = -3 ∧ roundHaz (-5) (-2) = 3 ∧ roundHaz 1 2 = 1 ∧
    roundHaz (-1) 2 = -1 ∧ roundHaz 1 3 = 0 ∧ roundHaz 2 3 = 1)

/-- 92_eei_decisions D3, 00_scope R6: what the open parameter ROUND may name: round_haz; to nearest with ties to even;
truncation, which goes no further from zero and stays within one divisor. Any other rule is a free value. Which rules
have a name is the model's choice, and the definitions of ties to even and truncation are PRESUMED (log 10). -/
def Obligations.RoundingRulesOfTheOpenParameter : Prop :=
  ∀ n d : Int, d ≠ 0 →
    roundBy .halfAway n d = roundHaz n d ∧
    2 * |roundBy .halfEven n d * d - n| ≤ |d| ∧
    (2 * |roundBy .halfEven n d * d - n| = |d| → roundBy .halfEven n d % 2 = 0) ∧
    |roundBy .towardZero n d * d| ≤ |n| ∧ |roundBy .towardZero n d * d - n| < |d|

/-- 41_transform R100: the pattern ENCODE produces reads back inside the field's range, so that with the symmetric clamp
the most negative code is never produced and a one-bit signed field is always 0; a rounded quotient inside the range is
not altered. With the other value of SIGNED_CLAMP (92_eei_decisions D4) the range begins at the most negative code. -/
def Obligations.EncodedIntegerStaysInFieldRange : Prop :=
  ∀ (p : Params) (E S O : Int) (len : Nat) (MIN MAX lo : Int), 1 ≤ len → len ≤ 64 →
    lo = -(2 ^ (len - 1)) + (if p.signedClamp = .symmetric then 1 else 0) →
    (0 ≤ ((encodeValue p E S O len false MIN MAX).toNat : Int) ∧
      ((encodeValue p E S O len false MIN MAX).toNat : Int) ≤ 2 ^ len - 1) ∧
    (lo ≤ (encodeValue p E S O len true MIN MAX).toInt ∧
      (encodeValue p E S O len true MIN MAX).toInt ≤ 2 ^ (len - 1) - 1) ∧
    (p.signedClamp = .symmetric → (encodeValue p E S O len true MIN MAX).toInt ≠ -(2 ^ (len - 1))) ∧
    (p.signedClamp = .symmetric → len = 1 → encodeValue p E S O len true MIN MAX = 0) ∧
    (∀ q : Int, q = roundBy p.round (clamp E MIN MAX - O) S →
      (0 ≤ q → q ≤ 2 ^ len - 1 → ((encodeValue p E S O len false MIN MAX).toNat : Int) = q) ∧
      (lo ≤ q → q ≤ 2 ^ (len - 1) - 1 → (encodeValue p E S O len true MIN MAX).toInt = q))

/-- 41_transform R107: a value beyond a limit encodes as the limit does, and a rounded quotient beyond the field's range
encodes as the end of the range, with every value of the open parameters. -/
def Obligations.EncodingClampsAtBothStages : Prop :=
  ∀ (p : Params) (E S O : Int) (len : Nat) (signed : Bool) (MIN MAX lo hi : Int), 1 ≤ len → MIN ≤ MAX →
    (lo, hi) = (if signed = true then
        (-(2 ^ (len - 1)) + (if p.signedClamp = .symmetric then 1 else 0), 2 ^ (len - 1) - 1)
      else (0, 2 ^ len - 1) : Int × Int) →
    (MAX ≤ E → encodeValue p E S O len signed MIN MAX = encodeValue p MAX S O len signed MIN MAX) ∧
    (E ≤ MIN → encodeValue p E S O len signed MIN MAX = encodeValue p MIN S O len signed MIN MAX) ∧
    (hi ≤ roundBy p.round (clamp E MIN MAX - O) S → encodeValue p E S O len signed MIN MAX = BitVec.ofInt 64 hi) ∧
    (roundBy p.round (clamp E MIN MAX - O) S ≤ lo → encodeValue p E S O len signed MIN MAX = BitVec.ofInt 64 lo)

/-- Resting on 41_transform R106, which speaks of round_haz: encoding then decoding comes back within half a count of
the scale; going through a field of a frame gives the same. The bounds for the other rules ROUND may name, half a count
for ties to even and less than one for truncation, are the model's choice and not R106's: the definitions of those two
rules are PRESUMED (log 10). -/
def Obligations.EncodeDecodeRoundTrip : Prop :=
  ∀ (p : Params) (E S O : Int) (len : Nat) (signed : Bool) (MIN MAX lo hi D : Int),
    1 ≤ len → len ≤ 64 → S ≠ 0 → MIN ≤ E → E ≤ MAX →
    (lo, hi) = (if signed = true then
        (-(2 ^ (len - 1)) + (if p.signedClamp = .symmetric then 1 else 0), 2 ^ (len - 1) - 1)
      else (0, 2 ^ len - 1) : Int × Int) →
    lo ≤ roundBy p.round (E - O) S → roundBy p.round (E - O) S ≤ hi →
    D = decodeValue (encodeValue p E S O len signed MIN MAX) signed S O →
    (p.round = .halfAway ∨ p.round = .halfEven → 2 * |D - E| ≤ |S|) ∧
    (p.round = .towardZero → |D - E| < |S|) ∧
    ∀ (F : Frame) (start : Nat) (order : ByteOrder), start + len ≤ 64 →
      decodeValue (extractField (insertField F start len order (encodeValue p E S O len signed MIN MAX))
        start len order signed) signed S O = D

/-! ## The Message Codec (spec/42_codec.md) -/

/-- 42_codec R122, R123: GETID and GETPERIOD in READY answer the constants ID and PERIOD. -/
def Obligations.GetidAndGetperiodComplete : Prop :=
  ∀ s : State, s.Ready →
    exec .getid s = .next { s with rsp := some ⟨.ok, s.cfg.id.toNat, 0, 0⟩, cdPulses := [] } ∧
    exec .getperiod s = .next { s with rsp := some ⟨.ok, s.cfg.period.toNat, 0, 0⟩, cdPulses := [] }

/-- 42_codec R126: a PARSE with FLEN >= DLEN, FLEN 9 to 15 included, decodes every descriptor, writable ones too,
from bytes 0 to DLEN-1 alone, exactly and unclamped, writes entry k of CD for every k below NSIG in index order and no
other, and changes nothing else. Two PARSEs whose frames agree in those bytes write the same values. That the
configuration fits its widths and is valid and CD in canonical form is part of the invariant StepKeepsTheInvariant
states. -/
def Obligations.ParseDecodesEverySignal : Prop :=
  ∀ (s : State) (flen : BitVec 4) (frame : Frame), s.Ready → s.cfg.Fits → s.cfg.Valid → s.cd.Wf →
    s.cfg.dlen.toNat ≤ flen.toNat →
    ∃ (cd : RegFile) (pulses : List (Nat × Eng)),
      exec (.parse flen frame) s =
        .next { s with cd := cd, rsp := some ⟨.ok, 0, 0, 0⟩, cdPulses := pulses } ∧
      (∀ k d, s.cfg.descs[k]? = some d → ∃ E : Eng, cd.read k = some E ∧ pulses[k]? = some (k, E) ∧
        E = rawInt (extractField frame d.start d.len d.order d.signed) d.signed * d.scale + d.offset) ∧
      (∀ k, s.cfg.nsig ≤ k → cd.read k = s.cd.read k) ∧
      pulses.length = s.cfg.nsig ∧
      (∀ (flen' : BitVec 4) (frame' : Frame), s.cfg.dlen.toNat ≤ flen'.toNat →
        (∀ b, b < s.cfg.dlen.toNat → frameByte frame b = frameByte frame' b) →
        exec (.parse flen' frame') s =
          .next { s with cd := cd, rsp := some ⟨.ok, 0, 0, 0⟩, cdPulses := pulses })

/-- 60_exceptions R148: a PARSE with FLEN < DLEN, whatever the frame holds, sets LOG_SHORT, answers ST_SHORT with zero
payload and changes nothing else. -/
def Obligations.ShortFrameIsSkipped : Prop :=
  ∀ (s : State) (flen : BitVec 4) (frame : Frame), s.Ready → flen.toNat < s.cfg.dlen.toNat →
    exec (.parse flen frame) s =
      .next { s with
        status := { phase := s.status.phase, logShort := true, fcause := s.status.fcause, fidx := s.status.fidx },
        rsp := some ⟨.short, 0, 0, 0⟩, cdPulses := [] }

/-- 42_codec R120, R127, R128 (a), (b), (d): UPDATE in READY changes CS in place and answers a copy of it with DLEN. A
bit that writable descriptors cover is the bit of the encoding of the staged value of the covering descriptor of the
highest index; every other bit of CS, in all eight bytes, is as before. -/
def Obligations.UpdateCompletes : Prop :=
  ∀ s : State, s.Ready → s.cfg.Valid →
    ∃ G : Frame,
      exec .update s = .next { s with cs := G, rsp := some ⟨.ok, 0, G, s.cfg.dlen⟩, cdPulses := [] } ∧
      (∀ k d i, s.cfg.descs[k]? = some d → d.wr = true → i < d.len →
        (∀ k' e, k < k' → s.cfg.descs[k']? = some e → e.wr = true →
          fieldBit d.order d.start d.len i ∉ bitSet e.order e.start e.len) →
        frameBit G (fieldBit d.order d.start d.len i) =
          (encodeValue s.cfg.par (s.readCmd k) d.scale d.offset d.len d.signed d.min d.max).getLsbD i) ∧
      (∀ p : Nat × Nat, p.1 < 8 → p.2 < 8 →
        (∀ d ∈ s.cfg.descs, d.wr = true → p ∉ bitSet d.order d.start d.len) → frameBit G p = frameBit s.cs p)

/-- The source's round-trip property (95_test_vectors T1) through the whole block, resting on 42_codec R124, R127 and
41_transform R106: a staged value within its limits, sent by UPDATE and received by PARSE, comes back in CD within half
a count of the scale, when no writable descriptor of a higher index shares its bits and the rounding is to nearest. R106
speaks of round_haz; that ties to even is taken in beside it is the model's choice, its definition PRESUMED (log 10). -/
def Obligations.UpdatedFrameParsesBackWithinHalfACount : Prop :=
  ∀ (s : State) (k : Nat) (d : Desc) (lo hi : Int), s.Ready → s.cfg.Fits → s.cfg.Valid → s.cd.Wf →
    (s.cfg.par.round = .halfAway ∨ s.cfg.par.round = .halfEven) →
    s.cfg.descs[k]? = some d → d.wr = true →
    (∀ k' e, k < k' → s.cfg.descs[k']? = some e → e.wr = true → ∀ p ∈ d.bits, p ∉ e.bits) →
    d.min ≤ s.readCmd k → s.readCmd k ≤ d.max →
    (lo, hi) = (if d.signed = true then
        (-(2 ^ (d.len - 1)) + (if s.cfg.par.signedClamp = .symmetric then 1 else 0), 2 ^ (d.len - 1) - 1)
      else (0, 2 ^ d.len - 1) : Int × Int) →
    lo ≤ roundBy s.cfg.par.round (s.readCmd k - d.offset) d.scale →
    roundBy s.cfg.par.round (s.readCmd k - d.offset) d.scale ≤ hi →
    ∃ (t u : State) (r : Response) (E : Eng),
      exec .update s = .next t ∧ t.rsp = some r ∧ r.status = .ok ∧ exec (.parse r.flen r.frame) t = .next u ∧
      u.cd.read k = some E ∧ 2 * |E - s.readCmd k| ≤ |d.scale|

/-- 42_codec R127: the staged values stay staged, so a second UPDATE with nothing between leaves the same state and
gives the same response. -/
def Obligations.UpdateIsRepeatable : Prop :=
  ∀ s t : State, s.Ready → s.cfg.Valid → exec .update s = .next t → exec .update t = .next t

/-- 42_codec R129: RESET in READY loads CS with DEF_BYTES and each CMD[k] that exists with DEF_CMD[k]; STATUS, CD and
everything else stay. -/
def Obligations.ResetLoadsTheDefaults : Prop :=
  ∀ s : State, s.Ready →
    ∃ cmd : RegFile,
      exec .reset s = .next { s with
        cs := s.cfg.defBytes, cmd := cmd, rsp := some ⟨.ok, 0, 0, 0⟩, cdPulses := [] } ∧
      (∀ k d, s.cfg.descs[k]? = some d → d.wr = true → cmd.read k = some d.defCmd) ∧
      (∀ k, (∀ d, s.cfg.descs[k]? = some d → d.wr = false) → cmd.read k = none)

/-- 42_codec R130: RESET is idempotent, its result depends on constants alone apart from STATUS and CD, and it makes the
register writes of the reset sequence. -/
def Obligations.ResetIsIdempotentAndForgetsTheState : Prop :=
  (∀ s t : State, s.Ready → exec .reset s = .next t → exec .reset t = .next t) ∧
  (∀ s s' t t' : State, s.Ready → s'.Ready → s.cfg = s'.cfg → exec .reset s = .next t → exec .reset s' = .next t' →
    t.cs = t'.cs ∧ t.cmd = t'.cmd) ∧
  (∀ s t : State, s.Ready → s.cfg.Valid → exec .reset s = .next t →
    t.cs = s.resetSequence.cs ∧ t.cmd = s.resetSequence.cmd)

/-- 42_codec R131: STAGE of a writable signal in READY stores the value as given in that one register; CS and every
other register stay. What is given is the W_ENG bits of the port. -/
def Obligations.StageWritesOneRegister : Prop :=
  ∀ (s : State) (idx : BitVec 8) (eng : Eng) (d : Desc), s.Ready → s.cmd.Wf →
    s.cfg.descs[idx.toNat]? = some d → d.wr = true →
    ∃ cmd : RegFile,
      exec (.stage idx eng) s = .next { s with cmd := cmd, rsp := some ⟨.ok, 0, 0, 0⟩, cdPulses := [] } ∧
      cmd.read idx.toNat = some (sint s.cfg.par.wEng eng) ∧ (∀ k, k ≠ idx.toNat → cmd.read k = s.cmd.read k) ∧
      (1 ≤ s.cfg.par.wEng → -(2 ^ (s.cfg.par.wEng - 1)) ≤ eng → eng < 2 ^ (s.cfg.par.wEng - 1) →
        cmd.read idx.toNat = some eng)

/-- 42_codec R131: STAGE of an index at or above NSIG, or of a signal that is not writable, is refused with ST_BADIDX
and changes no register. -/
def Obligations.StageRefusesBadIndex : Prop :=
  ∀ (s : State) (idx : BitVec 8) (eng : Eng), s.Ready →
    (s.cfg.nsig ≤ idx.toNat ∨ ∃ d, s.cfg.descs[idx.toNat]? = some d ∧ d.wr = false) →
    exec (.stage idx eng) s = .next { s with rsp := some ⟨.badIdx, 0, 0, 0⟩, cdPulses := [] }

/-- 42_codec R132 (a) to (d): the later staging wins; staging between two UPDATEs changes no bit outside that signal's
field; RESET discards what is staged; in configuration X1 the indices 3 and 5 are refused. -/
def Obligations.StagingCornerCases : Prop :=
  (∀ (s t u : State) (idx : BitVec 8) (v w : Eng), s.Ready → s.cmd.Wf → s.cfg.writable idx.toNat = true →
    exec (.stage idx v) s = .next t → exec (.stage idx w) t = .next u →
    u.cmd.read idx.toNat = some (sint s.cfg.par.wEng w) ∧ ∀ k, k ≠ idx.toNat → u.cmd.read k = s.cmd.read k) ∧
  (∀ (s t u v : State) (idx : BitVec 8) (eng : Eng) (d : Desc), s.Ready → s.cfg.Valid → s.cmd.Wf →
    s.cfg.descs[idx.toNat]? = some d → d.wr = true →
    exec .update s = .next t → exec (.stage idx eng) t = .next u → exec .update u = .next v →
    ∀ p : Nat × Nat, p.1 < 8 → p.2 < 8 → p ∉ d.bits → frameBit v.cs p = frameBit t.cs p) ∧
  (∀ (s t u w : State) (idx : BitVec 8) (eng : Eng), s.Ready → exec (.stage idx eng) s = .next t →
    exec .reset t = .next u → exec .reset s = .next w → u = w) ∧
  (∀ (s : State) (eng : Eng), s.Ready → s.cfg = Config.x1 →
    exec (.stage 3 eng) s = .next { s with rsp := some ⟨.badIdx, 0, 0, 0⟩, cdPulses := [] } ∧
    exec (.stage 5 eng) s = .next { s with rsp := some ⟨.badIdx, 0, 0, 0⟩, cdPulses := [] })

/-- 42_codec R133: RDSTATE in READY answers CS with DLEN and changes nothing else; after an UPDATE it repeats that
UPDATE's frame, after a RESET it gives DEF_BYTES. -/
def Obligations.RdstateCompletes : Prop :=
  ∀ s : State, s.Ready →
    exec .rdstate s = .next { s with rsp := some ⟨.ok, 0, s.cs, s.cfg.dlen⟩, cdPulses := [] } ∧
    (∀ t, exec .update s = .next t → exec .rdstate t = .next t) ∧
    (∀ t, exec .reset s = .next t →
      exec .rdstate t = .next { t with rsp := some ⟨.ok, 0, s.cfg.defBytes, s.cfg.dlen⟩ })

/-- 42_codec R134, 60_exceptions R143: RDSTATUS answers STATUS, in FATAL as in READY, and changes nothing else. -/
def Obligations.RdstatusCompletesInReadyAndFatal : Prop :=
  ∀ s : State, s.Ready ∨ s.Fatal →
    exec .rdstatus s = .next { s with rsp := some ⟨.ok, s.status.word.toNat, 0, 0⟩, cdPulses := [] }

/-- 10_state R24, 60_exceptions R142: the layout of the 16 bits RDSTATUS reads, bit 3 reading 0. -/
def Obligations.StatusWordLayout : Prop :=
  ∀ st : Status,
    st.word.extractLsb' 0 2 = (match st.phase with | .constructed => 0 | .ready => 1 | .fatal => 2) ∧
    st.word.getLsbD 2 = st.logShort ∧ st.word.getLsbD 3 = false ∧
    st.word.extractLsb' 4 4 = (match st.fcause with
      | .noFatal => 0 | .lenZero => 1 | .range => 2 | .overlap => 3 | .scaleZero => 4 | .limitOrder => 5 | .rsvd => 6
      | .geometry => 7 | .lenWide => 8) ∧
    st.word.extractLsb' 8 8 = st.fidx

/-! ## Outcomes (spec/60_exceptions.md) -/

/-- 60_exceptions R143: in FATAL every command, legal or not, whose header is not exactly 0xC000 answers ST_FATAL and
changes no register, RESET included; an idle step does not leave FATAL either. -/
def Obligations.FatalRefusesAllButRdstatus : Prop :=
  (∀ (s : State) (c : Command) (rest : List Input), s.port = .command c :: rest → s.Fatal → c.hdr ≠ 0xC000 →
    step s = .next { s with port := rest, rsp := some ⟨.fatal, 0, 0, 0⟩, cdPulses := [] }) ∧
  (∀ (s : State) (i : Instr), s.Fatal → i ≠ .rdstatus →
    exec i s = .next { s with rsp := some ⟨.fatal, 0, 0, 0⟩, cdPulses := [] }) ∧
  (∀ s : State, s.port = [] → s.Fatal → step s = .next { s with rsp := none, cdPulses := [] })

/-- 60_exceptions R147, the impossible entries of its table: the outcomes each decoded command can end with. -/
def Obligations.CommandOutcomeTable : Prop :=
  ∀ (s t : State) (i : Instr), i.WellFormed → exec i s = .next t →
    ∃ r, t.rsp = some r ∧
      match i with
      | .extract _ _ _ _ _ _ | .insert _ _ _ _ _ _ =>
          r.status = .ok ∨ r.status = .fatal ∨
            (r.status = .fatalNow ∧ (t.status.fcause = .lenZero ∨ t.status.fcause = .range) ∧ t.status.fidx = 0xFF)
      | .encode _ _ _ _ _ _ _ =>
          r.status = .ok ∨ r.status = .fatal ∨
            (r.status = .fatalNow ∧ (t.status.fcause = .lenZero ∨ t.status.fcause = .lenWide ∨
              t.status.fcause = .scaleZero ∨ t.status.fcause = .limitOrder) ∧ t.status.fidx = 0xFF)
      | .parse _ _ => r.status = .ok ∨ r.status = .short ∨ r.status = .fatal
      | .stage _ _ => r.status = .ok ∨ r.status = .badIdx ∨ r.status = .fatal
      | .decode _ _ _ _ | .update | .reset | .getid | .getperiod | .rdstate => r.status = .ok ∨ r.status = .fatal
      | .rdstatus => r.status = .ok

/-- 30_encoding R66, 10_state R34: every accepted command, legal or not, is answered by one response in its step; a
response other than ST_OK has zero payload, and a field the command's row leaves blank is zero. -/
def Obligations.EveryCommandGetsOneResponse : Prop :=
  (∀ (s t : State) (c : Command) (rest : List Input), s.port = .command c :: rest →
    s.status.phase ≠ .constructed → step s = .next t →
    ∃ r, t.rsp = some r ∧ (r.status ≠ .ok → r.data = 0 ∧ r.frame = 0 ∧ r.flen = 0)) ∧
  (∀ (s t : State) (i : Instr) (r : Response), exec i s = .next t → t.rsp = some r →
    match i with
    | .extract _ _ _ _ _ _ | .encode _ _ _ _ _ _ _ | .decode _ _ _ _ | .getid | .getperiod | .rdstatus =>
        r.frame = 0 ∧ r.flen = 0
    | .insert _ _ _ _ _ _ | .update | .rdstate => r.data = 0
    | .parse _ _ | .reset | .stage _ _ => r.data = 0 ∧ r.frame = 0 ∧ r.flen = 0)

/-! ## Reset and construction (spec/70_reset_and_hazards.md, spec/10_state.md R33) -/

/-- 70_reset_and_hazards R162: `rst` in any phase leaves READY with STATUS cleared and the defaults loaded when every
construction check passes, and FATAL with the cause and index of the first that fails otherwise, CS and CMD then being
whatever they are; CD is not touched and no response is given. -/
def Obligations.ResetSequenceReadyOrFatal : Prop :=
  ∀ (s : State) (rest : List Input), s.port = .rst :: rest →
    (s.cfg.Valid → ∃ cmd : RegFile,
      step s = .next { s with
        port := rest, cs := s.cfg.defBytes, cmd := cmd,
        status := { phase := .ready, logShort := false, fcause := .noFatal, fidx := 0 }, rsp := none, cdPulses := [] } ∧
      (∀ k d, s.cfg.descs[k]? = some d → d.wr = true → cmd.read k = some d.defCmd) ∧
      (∀ k, (∀ d, s.cfg.descs[k]? = some d → d.wr = false) → cmd.read k = none)) ∧
    (∀ cause idx, constructionCheck s.cfg = some (cause, idx) → ∃ (cs : Frame) (cmd : RegFile) (draws : Nat),
      step s = .next { s with
        port := rest, cs := cs, cmd := cmd, draws := draws,
        status := { phase := .fatal, logShort := false, fcause := cause, fidx := idx }, rsp := none, cdPulses := [] })

/-- 70_reset_and_hazards R163: what the construction checks accept; which cause and index they report, the checks of the
lowest failing index in their order; that they look at nothing else; and that no PARSE, UPDATE, RESET or STAGE of a valid
configuration raises Fatal. -/
def Obligations.ConstructionChecksInOrder : Prop :=
  (∀ c : CodecConfig, constructionCheck c = none ↔
    1 ≤ c.dlen.toNat ∧ c.dlen.toNat ≤ 8 ∧ c.nsig ≤ 255 ∧ ∀ k d, c.descs[k]? = some d → c.RowOk k d) ∧
  (∀ c : CodecConfig, (c.dlen.toNat = 0 ∨ 8 < c.dlen.toNat ∨ 255 < c.nsig) →
    constructionCheck c = some (.geometry, 0xFF)) ∧
  (∀ (c : CodecConfig) (k : Nat) (d : Desc), 1 ≤ c.dlen.toNat → c.dlen.toNat ≤ 8 → c.nsig ≤ 255 →
    c.descs[k]? = some d → ¬ c.RowOk k d → (∀ j e, j < k → c.descs[j]? = some e → c.RowOk j e) →
    constructionCheck c = some
      (if d.ctl.extractLsb' 20 12 ≠ 0 then .rsvd
        else if d.len < 1 then .lenZero
        else if 8 * c.dlen.toNat < d.start + d.len then .range
        else if d.scale = 0 then .scaleZero
        else if d.max < d.min then .limitOrder
        else .overlap, BitVec.ofNat 8 k)) ∧
  (∀ (c : CodecConfig) (par : Params) (id period : BitVec 32) (defBytes : Frame) (f : Desc → Eng),
    constructionCheck { c with
      par := par, id := id, period := period, defBytes := defBytes, descs := c.descs.map fun d => { d with defCmd := f d } } =
      constructionCheck c) ∧
  (∀ (s : State) (i : Instr), s.Ready → s.cfg.Valid →
    (i.mnemonic = .parse ∨ i.mnemonic = .update ∨ i.mnemonic = .reset ∨ i.mnemonic = .stage) →
    ∃ t, exec i s = .next t ∧ t.Ready)

/-- The model's choice of instance (log 2), resting on 10_state R33 and 95_test_vectors sections 2.8 and 3: the reset
state is what the reset sequence leaves of it, for the valid configuration X1 with the values 00_scope R6 gives the open
parameters, and STATUS reads 0x0001. -/
def Obligations.ResetStateIsTheConstructedExample : Prop :=
  State.reset.cfg = Config.x1 ∧ Config.x1.par = ⟨16, 32, 128, .halfAway, .symmetric⟩ ∧ Config.x1.Fits ∧
    Config.x1.Valid ∧ State.reset.resetSequence = State.reset ∧
    State.reset.status.word = 0x0001 ∧ (∀ k, State.reset.cd.read k = none)

/-- 70_reset_and_hazards R165, 93_implementation_defined U16 (log 7): a command cut by `rst` gives no response; CS, CMD
and STATUS are those of the reset sequence; each CD entry holds its old value or, where the command was a full PARSE in
READY, the value that PARSE would have written. -/
def Obligations.ResetDuringACommandDropsIt : Prop :=
  ∀ (s : State) (c : Command) (rest : List Input), s.port = .rstDuring c :: rest →
    s.status.phase ≠ .constructed → s.cfg.Valid → s.cd.Wf →
    ∃ (cd : RegFile) (pulses : List (Nat × Eng)) (draws : Nat),
      step s = .next { s with
        port := rest, cs := s.cfg.defBytes, cmd := s.resetSequence.cmd, cd := cd, draws := draws,
        status := { phase := .ready, logShort := false, fcause := .noFatal, fidx := 0 }, rsp := none,
        cdPulses := pulses } ∧
      (∀ k, cd.read k = s.cd.read k ∨
        ∃ (flen : BitVec 4) (frame : Frame) (d : Desc), s.Ready ∧ decode c = .ok (.parse flen frame) ∧
          s.cfg.dlen.toNat ≤ flen.toNat ∧ s.cfg.descs[k]? = some d ∧ cd.read k = some (decodeSignal s.cfg.par d frame))

/-- 70_reset_and_hazards R170: the first UPDATE after a RESET shows DEF_BYTES exactly when the configuration is
default-consistent. -/
def Obligations.DefaultConsistencyDecidesTheFirstUpdate : Prop :=
  ∀ s t u : State, s.Ready → exec .reset s = .next t → exec .update t = .next u →
    (u.cs = s.cfg.defBytes ↔ s.cfg.DefaultConsistent)

/-! ## The whole machine -/

/-- 10_state R21, R24, R26, R28, R30, 42_codec R128 (a), R135: every step keeps the invariant of the reachable states. -/
def Obligations.StepKeepsTheInvariant : Prop :=
  ∀ s t : State, s.Inv → step s = .next t → t.Inv

/-- The invariant holds in the reset state, whose instance is the model's choice (log 2). -/
def Obligations.ResetStateMeetsTheInvariant : Prop := State.reset.Inv

/-- 00_scope R11, 30_encoding R68: no event and no state makes the block stop or fail to answer. -/
def Obligations.EveryStepAnswersANextState : Prop := ∀ s : State, ∃ t, step s = .next t

/-- 10_state R13 (a), 20_memory R55: no step, `rst` included, changes a configuration constant. -/
def Obligations.ConfigurationNeverChanges : Prop := ∀ s t : State, step s = .next t → t.cfg = s.cfg

/-- 42_codec R135: all transitions of PHASE. -/
def Obligations.PhaseTransitions : Prop :=
  (∀ (s : State) (rest : List Input), s.port = .rst :: rest →
    step s = .next { s with port := rest }.enterConstructed.construct ∧
      { s with port := rest }.enterConstructed.status.phase = .constructed) ∧
  (∀ s t : State, step s = .next t →
    (s.status.phase = .constructed ∨ (∃ rest, s.port = .rst :: rest) ∨ (∃ c rest, s.port = .rstDuring c :: rest) →
      (s.cfg.Valid → t.Ready) ∧ (¬ s.cfg.Valid → t.Fatal)) ∧
    (s.port = [] → s.Ready → t.Ready) ∧
    (s.port = [] → s.Fatal → t.Fatal) ∧
    (∀ c rest, s.port = .command c :: rest → s.Fatal → t.Fatal) ∧
    (∀ c rest, s.port = .command c :: rest → s.Ready →
      (t.Ready ∧ ∃ r, t.rsp = some r ∧ r.status ≠ .fatalNow) ∨
      (t.Fatal ∧ (∃ r, t.rsp = some r ∧ r.status = .fatalNow) ∧
        ∃ i, decode c = .ok i ∧ (i.mnemonic = .extract ∨ i.mnemonic = .insert ∨ i.mnemonic = .encode))))

/-- 10_state R27: LOG_SHORT is set by a PARSE of a short frame and by nothing else, cleared by `rst` and by nothing
else, and read by nothing but RDSTATUS and the pin. -/
def Obligations.LogShortIsSticky : Prop :=
  (∀ s t : State, step s = .next t → s.status.phase ≠ .constructed →
    ((∃ rest, s.port = .rst :: rest) ∨ (∃ c rest, s.port = .rstDuring c :: rest) → t.status.logShort = false) ∧
    (¬ (∃ rest, s.port = .rst :: rest) → ¬ (∃ c rest, s.port = .rstDuring c :: rest) →
      (t.status.logShort = true ↔ s.status.logShort = true ∨
        ∃ c rest flen frame, s.port = .command c :: rest ∧ s.Ready ∧ decode c = .ok (.parse flen frame) ∧
          flen.toNat < s.cfg.dlen.toNat))) ∧
  (∀ (s t : State) (i : Instr) (b : Bool), i ≠ .rdstatus → exec i s = .next t →
    ∃ b', exec i { s with status := { s.status with logShort := b } } =
      .next { t with status := { t.status with logShort := b' } }) ∧
  (∀ s : State, s.logShortPin = s.status.logShort)

/-- 10_state R28: in FATAL no step but `rst` changes FCAUSE or FIDX, nor any other field of STATUS. -/
def Obligations.FirstFatalCauseIsKept : Prop :=
  ∀ s t : State, s.Fatal → step s = .next t → (¬ ∃ rest, s.port = .rst :: rest) →
    (¬ ∃ c rest, s.port = .rstDuring c :: rest) → t.status = s.status

/-- 20_memory R52: PARSE does not depend on CS, CMD or LOG_SHORT and writes only CD and LOG_SHORT; UPDATE, RESET, STAGE and RDSTATE
do not depend on CD or LOG_SHORT and write only CS and CMD; so a PARSE and one of them give the same registers and the
same responses in either order. -/
def Obligations.ParseAndCodecStateAreIndependent : Prop :=
  (∀ (s t : State) (flen : BitVec 4) (frame : Frame) (cs : Frame) (cmd : RegFile) (b : Bool),
    exec (.parse flen frame) s = .next t →
    (∃ b', exec (.parse flen frame) { s with cs := cs, cmd := cmd, status := { s.status with logShort := b } } =
      .next { t with cs := cs, cmd := cmd, status := { t.status with logShort := b' } }) ∧
    t = { s with cd := t.cd, status := { s.status with logShort := t.status.logShort },
                 rsp := t.rsp, cdPulses := t.cdPulses }) ∧
  (∀ (s t : State) (i : Instr) (cd : RegFile) (b : Bool),
    (i.mnemonic = .update ∨ i.mnemonic = .reset ∨ i.mnemonic = .stage ∨ i.mnemonic = .rdstate) →
    exec i s = .next t →
    exec i { s with cd := cd, status := { s.status with logShort := b } } =
      .next { t with cd := cd, status := { t.status with logShort := b } } ∧
    t = { s with cs := t.cs, cmd := t.cmd, rsp := t.rsp, cdPulses := t.cdPulses }) ∧
  (∀ (s a b a' b' : State) (i : Instr) (flen : BitVec 4) (frame : Frame),
    (i.mnemonic = .update ∨ i.mnemonic = .reset ∨ i.mnemonic = .stage ∨ i.mnemonic = .rdstate) →
    exec (.parse flen frame) s = .next a → exec i a = .next b →
    exec i s = .next a' → exec (.parse flen frame) a' = .next b' →
    b.cs = b'.cs ∧ b.cmd = b'.cmd ∧ b.status = b'.status ∧ b.cd = b'.cd ∧ b.rsp = a'.rsp ∧ a.rsp = b'.rsp)

/-- 10_state R32, the `w` entries of its table: which command may write which register. -/
def Obligations.EachRegisterHasItsWriters : Prop :=
  ∀ (s t : State) (i : Instr), exec i s = .next t →
    t.cfg = s.cfg ∧ t.port = s.port ∧ t.draws = s.draws ∧
    (t.cs ≠ s.cs → i.mnemonic = .update ∨ i.mnemonic = .reset) ∧
    (t.cmd ≠ s.cmd → i.mnemonic = .stage ∨ i.mnemonic = .reset) ∧
    (t.cd ≠ s.cd → i.mnemonic = .parse) ∧
    (t.status.logShort ≠ s.status.logShort → i.mnemonic = .parse) ∧
    (t.status.phase ≠ s.status.phase ∨ t.status.fcause ≠ s.status.fcause ∨ t.status.fidx ≠ s.status.fidx →
      i.mnemonic = .extract ∨ i.mnemonic = .insert ∨ i.mnemonic = .encode)

/-- 10_state R22: in READY the bytes of CS at and above DLEN hold DEF_BYTES. -/
def Obligations.CodecStateTailHoldsTheDefaults : Prop :=
  ∀ (s : State) (b : Nat), s.Inv → s.Ready → s.cfg.dlen.toNat ≤ b → b < 8 →
    frameByte s.cs b = frameByte s.cfg.defBytes b

/-- 10_state R30: a boolean signal, one unsigned bit with SCALE = 1.0 and OFFSET = 0, is 0 for false and 2^FRAC for
true. -/
def Obligations.BooleanSignalIsZeroOrOne : Prop :=
  ∀ (p : Params) (d : Desc) (F : Frame), 64 + p.wCoef + 1 ≤ p.wEng → sint p.wCoef d.scale = d.scale →
    d.len = 1 → d.signed = false → d.scale = 2 ^ p.frac → d.offset = 0 →
    decodeSignal p d F = if frameBit F (fieldBit d.order d.start 1 0) then 2 ^ p.frac else 0

/-- The host's placing of a command (log 4), resting on 30_encoding R59 and R69: the next step executes exactly the
command the word decodes to, on the state as it was. -/
def Obligations.PresentedWordIsExecutedNext : Prop :=
  ∀ (s : State) (nbits w : Nat) (i : Instr), s.status.phase ≠ .constructed → decodeTableWord nbits w = some i →
    step (s.withFetchWord nbits w) = exec i s

/-- 00_scope R12: the block starts no action of its own: with nothing on the port no register changes. That such a step
exists is the model's form (log 3). -/
def Obligations.IdleStepChangesNoRegister : Prop :=
  ∀ s : State, s.port = [] → s.status.phase ≠ .constructed → step s = .next { s with rsp := none, cdPulses := [] }
end

