-- ==== Sys2Proof/Laws/State.lean ====
section
/-! SUPPORT. One lemma per field of State per named update, each true by rfl, so that no proof unfolds an update. -/

namespace Sys2Proof.Machine

@[simp] theorem State.respond_cfg (s : State) (r : Response) : (s.respond r).cfg = s.cfg := rfl
@[simp] theorem State.respond_cs (s : State) (r : Response) : (s.respond r).cs = s.cs := rfl
@[simp] theorem State.respond_cmd (s : State) (r : Response) : (s.respond r).cmd = s.cmd := rfl
@[simp] theorem State.respond_status (s : State) (r : Response) : (s.respond r).status = s.status := rfl
@[simp] theorem State.respond_cd (s : State) (r : Response) : (s.respond r).cd = s.cd := rfl
@[simp] theorem State.respond_port (s : State) (r : Response) : (s.respond r).port = s.port := rfl
@[simp] theorem State.respond_rsp (s : State) (r : Response) : (s.respond r).rsp = some r := rfl
@[simp] theorem State.respond_cdPulses (s : State) (r : Response) : (s.respond r).cdPulses = [] := rfl
@[simp] theorem State.respond_draws (s : State) (r : Response) : (s.respond r).draws = s.draws := rfl

@[simp] theorem State.quiet_cfg (s : State) : (s.quiet).cfg = s.cfg := rfl
@[simp] theorem State.quiet_cs (s : State) : (s.quiet).cs = s.cs := rfl
@[simp] theorem State.quiet_cmd (s : State) : (s.quiet).cmd = s.cmd := rfl
@[simp] theorem State.quiet_status (s : State) : (s.quiet).status = s.status := rfl
@[simp] theorem State.quiet_cd (s : State) : (s.quiet).cd = s.cd := rfl
@[simp] theorem State.quiet_port (s : State) : (s.quiet).port = s.port := rfl
@[simp] theorem State.quiet_rsp (s : State) : (s.quiet).rsp = none := rfl
@[simp] theorem State.quiet_cdPulses (s : State) : (s.quiet).cdPulses = [] := rfl
@[simp] theorem State.quiet_draws (s : State) : (s.quiet).draws = s.draws := rfl

@[simp] theorem State.refuse_cfg (s : State) (st : RspStatus) : (s.refuse st).cfg = s.cfg := rfl
@[simp] theorem State.refuse_cs (s : State) (st : RspStatus) : (s.refuse st).cs = s.cs := rfl
@[simp] theorem State.refuse_cmd (s : State) (st : RspStatus) : (s.refuse st).cmd = s.cmd := rfl
@[simp] theorem State.refuse_status (s : State) (st : RspStatus) : (s.refuse st).status = s.status := rfl
@[simp] theorem State.refuse_cd (s : State) (st : RspStatus) : (s.refuse st).cd = s.cd := rfl
@[simp] theorem State.refuse_port (s : State) (st : RspStatus) : (s.refuse st).port = s.port := rfl
@[simp] theorem State.refuse_rsp (s : State) (st : RspStatus) : (s.refuse st).rsp = some (Response.bare st) := rfl
@[simp] theorem State.refuse_cdPulses (s : State) (st : RspStatus) : (s.refuse st).cdPulses = [] := rfl
@[simp] theorem State.refuse_draws (s : State) (st : RspStatus) : (s.refuse st).draws = s.draws := rfl

@[simp] theorem State.raiseFatal_cfg (s : State) (c : Cause) (i : BitVec 8) : (s.raiseFatal c i).cfg = s.cfg := rfl
@[simp] theorem State.raiseFatal_cs (s : State) (c : Cause) (i : BitVec 8) : (s.raiseFatal c i).cs = s.cs := rfl
@[simp] theorem State.raiseFatal_cmd (s : State) (c : Cause) (i : BitVec 8) : (s.raiseFatal c i).cmd = s.cmd := rfl
@[simp] theorem State.raiseFatal_status (s : State) (c : Cause) (i : BitVec 8) : (s.raiseFatal c i).status = s.status.raise c i := rfl
@[simp] theorem State.raiseFatal_cd (s : State) (c : Cause) (i : BitVec 8) : (s.raiseFatal c i).cd = s.cd := rfl
@[simp] theorem State.raiseFatal_port (s : State) (c : Cause) (i : BitVec 8) : (s.raiseFatal c i).port = s.port := rfl
@[simp] theorem State.raiseFatal_rsp (s : State) (c : Cause) (i : BitVec 8) : (s.raiseFatal c i).rsp = s.rsp := rfl
@[simp] theorem State.raiseFatal_cdPulses (s : State) (c : Cause) (i : BitVec 8) : (s.raiseFatal c i).cdPulses = s.cdPulses := rfl
@[simp] theorem State.raiseFatal_draws (s : State) (c : Cause) (i : BitVec 8) : (s.raiseFatal c i).draws = s.draws := rfl

@[simp] theorem State.fatalNow_cfg (s : State) (c : Cause) : (s.fatalNow c).cfg = s.cfg := rfl
@[simp] theorem State.fatalNow_cs (s : State) (c : Cause) : (s.fatalNow c).cs = s.cs := rfl
@[simp] theorem State.fatalNow_cmd (s : State) (c : Cause) : (s.fatalNow c).cmd = s.cmd := rfl
@[simp] theorem State.fatalNow_status (s : State) (c : Cause) : (s.fatalNow c).status = s.status.raise c 0xFF := rfl
@[simp] theorem State.fatalNow_cd (s : State) (c : Cause) : (s.fatalNow c).cd = s.cd := rfl
@[simp] theorem State.fatalNow_port (s : State) (c : Cause) : (s.fatalNow c).port = s.port := rfl
@[simp] theorem State.fatalNow_rsp (s : State) (c : Cause) : (s.fatalNow c).rsp = some (Response.bare .fatalNow) := rfl
@[simp] theorem State.fatalNow_cdPulses (s : State) (c : Cause) : (s.fatalNow c).cdPulses = [] := rfl
@[simp] theorem State.fatalNow_draws (s : State) (c : Cause) : (s.fatalNow c).draws = s.draws := rfl

@[simp] theorem State.loadDefaults_cfg (s : State) : (s.loadDefaults).cfg = s.cfg := rfl
@[simp] theorem State.loadDefaults_cs (s : State) : (s.loadDefaults).cs = s.cfg.defBytes := rfl
@[simp] theorem State.loadDefaults_cmd (s : State) : (s.loadDefaults).cmd = cmdFile s.cfg fun d _ => d.defCmd := rfl
@[simp] theorem State.loadDefaults_status (s : State) : (s.loadDefaults).status = s.status := rfl
@[simp] theorem State.loadDefaults_cd (s : State) : (s.loadDefaults).cd = s.cd := rfl
@[simp] theorem State.loadDefaults_port (s : State) : (s.loadDefaults).port = s.port := rfl
@[simp] theorem State.loadDefaults_rsp (s : State) : (s.loadDefaults).rsp = s.rsp := rfl
@[simp] theorem State.loadDefaults_cdPulses (s : State) : (s.loadDefaults).cdPulses = s.cdPulses := rfl
@[simp] theorem State.loadDefaults_draws (s : State) : (s.loadDefaults).draws = s.draws := rfl

@[simp] theorem State.enterConstructed_cfg (s : State) : (s.enterConstructed).cfg = s.cfg := rfl
@[simp] theorem State.enterConstructed_cs (s : State) : (s.enterConstructed).cs = s.cs := rfl
@[simp] theorem State.enterConstructed_cmd (s : State) : (s.enterConstructed).cmd = s.cmd := rfl
@[simp] theorem State.enterConstructed_status (s : State) : (s.enterConstructed).status = Status.cleared := rfl
@[simp] theorem State.enterConstructed_cd (s : State) : (s.enterConstructed).cd = s.cd := rfl
@[simp] theorem State.enterConstructed_port (s : State) : (s.enterConstructed).port = s.port := rfl
@[simp] theorem State.enterConstructed_rsp (s : State) : (s.enterConstructed).rsp = none := rfl
@[simp] theorem State.enterConstructed_cdPulses (s : State) : (s.enterConstructed).cdPulses = [] := rfl
@[simp] theorem State.enterConstructed_draws (s : State) : (s.enterConstructed).draws = s.draws := rfl

/-! ## STATUS -/

@[simp] theorem Status.raise_phase (st : Status) (c : Cause) (i : BitVec 8) : (st.raise c i).phase = .fatal := rfl
@[simp] theorem Status.raise_logShort (st : Status) (c : Cause) (i : BitVec 8) :
    (st.raise c i).logShort = st.logShort := rfl
@[simp] theorem Status.raise_fcause (st : Status) (c : Cause) (i : BitVec 8) : (st.raise c i).fcause = c := rfl
@[simp] theorem Status.raise_fidx (st : Status) (c : Cause) (i : BitVec 8) : (st.raise c i).fidx = i := rfl
@[simp] theorem Status.setLogShort_phase (st : Status) : st.setLogShort.phase = st.phase := rfl
@[simp] theorem Status.setLogShort_logShort (st : Status) : st.setLogShort.logShort = true := rfl
@[simp] theorem Status.setLogShort_fcause (st : Status) : st.setLogShort.fcause = st.fcause := rfl
@[simp] theorem Status.setLogShort_fidx (st : Status) : st.setLogShort.fidx = st.fidx := rfl
@[simp] theorem Status.cleared_phase : Status.cleared.phase = .constructed := rfl
@[simp] theorem Status.cleared_logShort : Status.cleared.logShort = false := rfl
@[simp] theorem Status.cleared_fcause : Status.cleared.fcause = .noFatal := rfl
@[simp] theorem Status.cleared_fidx : Status.cleared.fidx = 0 := rfl

/-! ## Responses -/

@[simp] theorem Response.bare_status (st : RspStatus) : (Response.bare st).status = st := rfl
@[simp] theorem Response.bare_data (st : RspStatus) : (Response.bare st).data = 0 := rfl
@[simp] theorem Response.bare_frame (st : RspStatus) : (Response.bare st).frame = 0 := rfl
@[simp] theorem Response.bare_flen (st : RspStatus) : (Response.bare st).flen = 0 := rfl
@[simp] theorem Response.okData_status (v : Eng) : (Response.okData v).status = .ok := rfl
@[simp] theorem Response.okData_data (v : Eng) : (Response.okData v).data = v := rfl
@[simp] theorem Response.okData_frame (v : Eng) : (Response.okData v).frame = 0 := rfl
@[simp] theorem Response.okData_flen (v : Eng) : (Response.okData v).flen = 0 := rfl
@[simp] theorem Response.okFrame_status (F : Frame) (n : BitVec 4) : (Response.okFrame F n).status = .ok := rfl
@[simp] theorem Response.okFrame_data (F : Frame) (n : BitVec 4) : (Response.okFrame F n).data = 0 := rfl
@[simp] theorem Response.okFrame_frame (F : Frame) (n : BitVec 4) : (Response.okFrame F n).frame = F := rfl
@[simp] theorem Response.okFrame_flen (F : Frame) (n : BitVec 4) : (Response.okFrame F n).flen = n := rfl

/-! ## The phase check -/

theorem whenReady_ready {s : State} (h : s.Ready) (t : State) : whenReady s t = .next t := by
  simp only [whenReady, h]

theorem whenReady_fatal {s : State} (h : s.Fatal) (t : State) : whenReady s t = .next (s.refuse .fatal) := by
  simp only [whenReady, h]

theorem whenReady_constructed {s : State} (h : s.status.phase = .constructed) (t : State) :
    whenReady s t = .fault .commandInReset := by
  simp only [whenReady, h]

/-- Everything the phase check can answer. -/
theorem whenReady_next {s t u : State} (h : whenReady s t = .next u) :
    (s.Ready ∧ u = t) ∨ (s.Fatal ∧ u = s.refuse .fatal) := by
  unfold whenReady at h
  split at h
  · next hp => exact .inl ⟨hp, by simpa using h.symm⟩
  · next hp => exact .inr ⟨hp, by simpa using h.symm⟩
  · cases h

end Sys2Proof.Machine
end

