-- ==== Sys2Proof/Laws/Field.lean ====
section
/-! SUPPORT. What the field operations do, bit by bit (spec/20_memory.md R44 to R46, spec/40_bitfield.md R83, R87):
every later proof about fields cites these lemmas. -/

namespace Sys2Proof.Machine

/-- The position of bit `i` of a field among the 64 bits of the frame. -/
def fieldPos (order : ByteOrder) (start len i : Nat) : Nat :=
  8 * (fieldBit order start len i).1 + (fieldBit order start len i).2

theorem fieldPos_intel (start len i : Nat) : fieldPos .intel start len i = start + i := by
  simp only [fieldPos, fieldBit]; omega

theorem fieldPos_motorola (start len i : Nat) :
    fieldPos .motorola start len i = 8 * ((start + (len - 1 - i)) / 8) + (7 - (start + (len - 1 - i)) % 8) := rfl

theorem fieldBit_snd_lt (order : ByteOrder) (start len i : Nat) : (fieldBit order start len i).2 < 8 := by
  cases order <;> simp only [fieldBit] <;> omega

/-- Every bit of a field inside the bound lies in bytes `0` to `n - 1` (40_bitfield R82). -/
theorem fieldBit_fst_lt {order : ByteOrder} {start len n i : Nat} (hi : i < len) (h : start + len ≤ 8 * n) :
    (fieldBit order start len i).1 < n := by
  cases order <;> simp only [fieldBit] <;> omega

theorem fieldPos_lt {order : ByteOrder} {start len n i : Nat} (hi : i < len) (h : start + len ≤ 8 * n) :
    fieldPos order start len i < 8 * n := by
  have h1 := fieldBit_fst_lt (order := order) hi h
  have h2 := fieldBit_snd_lt order start len i
  simp only [fieldPos]; omega

theorem pair_eq_of_pos {p q : Nat × Nat} (hp : p.2 < 8) (hq : q.2 < 8) (h : 8 * p.1 + p.2 = 8 * q.1 + q.2) :
    p = q := by
  ext <;> omega

/-- Distinct bits of a field lie at distinct places. -/
theorem fieldPos_inj {order : ByteOrder} {start len i j : Nat} (hi : i < len) (hj : j < len)
    (h : fieldPos order start len i = fieldPos order start len j) : i = j := by
  cases order with
  | intel => simp only [fieldPos_intel] at h; omega
  | motorola => simp only [fieldPos_motorola] at h; omega

theorem fieldBit_inj {order : ByteOrder} {start len i j : Nat} (hi : i < len) (hj : j < len)
    (h : fieldBit order start len i = fieldBit order start len j) : i = j :=
  fieldPos_inj (start := start) (order := order) hi hj (by simp only [fieldPos, h])

theorem mem_bitSet {order : ByteOrder} {start len : Nat} {p : Nat × Nat} :
    p ∈ bitSet order start len ↔ ∃ i, i < len ∧ fieldBit order start len i = p := by
  simp only [bitSet, List.mem_map, List.mem_range]

theorem mem_bitSet_intel {start len : Nat} {p : Nat × Nat} :
    p ∈ bitSet .intel start len ↔ ∃ g, start ≤ g ∧ g < start + len ∧ p = (g / 8, g % 8) := by
  rw [mem_bitSet]
  constructor
  · rintro ⟨i, hi, rfl⟩; exact ⟨start + i, by omega, by omega, rfl⟩
  · rintro ⟨g, h1, h2, rfl⟩
    exact ⟨g - start, by omega, by simp only [fieldBit]; rw [show start + (g - start) = g by omega]⟩

theorem mem_bitSet_motorola {start len : Nat} {p : Nat × Nat} :
    p ∈ bitSet .motorola start len ↔ ∃ g, start ≤ g ∧ g < start + len ∧ p = (g / 8, 7 - g % 8) := by
  rw [mem_bitSet]
  constructor
  · rintro ⟨i, hi, rfl⟩; exact ⟨start + (len - 1 - i), by omega, by omega, rfl⟩
  · rintro ⟨g, h1, h2, rfl⟩
    refine ⟨len - 1 - (g - start), by omega, ?_⟩
    simp only [fieldBit]
    rw [show start + (len - 1 - (len - 1 - (g - start))) = g by omega]

/-- The bound of a field, LEN_ZERO and RANGE in one (40_bitfield R82). -/
theorem checkField_none {n start len : Nat} : checkField n start len = none ↔ 1 ≤ len ∧ start + len ≤ 8 * n := by
  unfold checkField
  repeat' split
  all_goals simp
  all_goals omega

/-! ## Single bits -/

theorem getLsbD_setFrameBit (F : Frame) (p : Nat × Nat) (v : Bool) (q : Nat) :
    (setFrameBit F p v).getLsbD q = if q = 8 * p.1 + p.2 ∧ q < 64 then v else F.getLsbD q := by
  have hF : 64 ≤ q → F.getLsbD q = false := fun h => BitVec.getLsbD_of_ge F q h
  unfold setFrameBit
  by_cases hq : q < 64
  · by_cases he : q = 8 * p.1 + p.2
    · subst he; cases v <;> simp [hq]
    · cases v <;> simp [hq, he]
  · have h0 := hF (by omega)
    cases v
    · simp [hq, h0]
    · simp only [if_true, BitVec.getLsbD_or, BitVec.getLsbD_twoPow, h0, hq, and_false, if_false, Bool.false_or,
        Bool.and_eq_false_iff, decide_eq_false_iff_not]
      omega

/-- Two frames are equal when they agree in every bit of every byte. -/
theorem frame_ext {F G : Frame} (h : ∀ p : Nat × Nat, p.1 < 8 → p.2 < 8 → frameBit F p = frameBit G p) : F = G := by
  apply BitVec.eq_of_getLsbD_eq
  intro q hq
  have := h (q / 8, q % 8) (by simp only; omega) (by simp only; omega)
  simp only [frameBit] at this
  rwa [Nat.div_add_mod] at this

/-! ## Insertion -/

/-- The first `k` turns of the insertion loop, bit by bit. -/
theorem getLsbD_insertBits (F : Frame) (order : ByteOrder) (start len : Nat) (v : Raw) (k : Nat) (hk : k ≤ len)
    (q : Nat) :
    ((∀ i, i < k → fieldPos order start len i ≠ q) →
      (insertBits F order start len v k).getLsbD q = F.getLsbD q) ∧
    (∀ i, i < k → fieldPos order start len i = q → q < 64 →
      (insertBits F order start len v k).getLsbD q = v.getLsbD i) := by
  induction k with
  | zero => exact ⟨fun _ => rfl, fun i hi => absurd hi (by omega)⟩
  | succ k ih =>
    obtain ⟨ih1, ih2⟩ := ih (by omega)
    constructor
    · intro h
      rw [insertBits, getLsbD_setFrameBit, if_neg, ih1 fun i hi => h i (by omega)]
      rintro ⟨hq, -⟩
      exact h k (by omega) hq.symm
    · intro i hi hpos hq
      rw [insertBits, getLsbD_setFrameBit]
      by_cases hik : i = k
      · subst hik
        rw [if_pos ⟨hpos.symm, hq⟩]
      · rw [if_neg, ih2 i (by omega) hpos hq]
        rintro ⟨hq', -⟩
        exact hik (fieldPos_inj (by omega) (by omega) (hpos.trans hq'))

/-- The bit of the new frame at the place of bit `i` of the field is bit `i` of the value. -/
theorem frameBit_insertField_field (F : Frame) {start len : Nat} (order : ByteOrder) (v : Raw) {i : Nat} (hi : i < len)
    (h : start + len ≤ 64) :
    frameBit (insertField F start len order v) (fieldBit order start len i) = v.getLsbD i :=
  (getLsbD_insertBits F order start len v len (Nat.le_refl _) _).2 i hi rfl
    (fieldPos_lt (order := order) (n := 8) hi h)

/-- A bit outside the field keeps its value, whatever the bound. -/
theorem frameBit_insertField_other (F : Frame) (start len : Nat) (order : ByteOrder) (v : Raw) {p : Nat × Nat}
    (hp : p.2 < 8) (h : p ∉ bitSet order start len) :
    frameBit (insertField F start len order v) p = frameBit F p := by
  refine (getLsbD_insertBits F order start len v len (Nat.le_refl _) _).1 fun i hi hq => h ?_
  exact mem_bitSet.2 ⟨i, hi, pair_eq_of_pos (fieldBit_snd_lt ..) hp hq⟩

/-- Writing back what the field holds changes nothing (40_bitfield R90 b). -/
theorem insertField_self {F : Frame} {start len : Nat} {order : ByteOrder} {v : Raw} (hb : start + len ≤ 64)
    (h : ∀ i, i < len → v.getLsbD i = frameBit F (fieldBit order start len i)) :
    insertField F start len order v = F := by
  apply frame_ext
  intro p h1 h2
  by_cases hp : p ∈ bitSet order start len
  · obtain ⟨i, hi, rfl⟩ := mem_bitSet.1 hp
    rw [frameBit_insertField_field _ _ _ hi hb, h i hi]
  · rw [frameBit_insertField_other _ _ _ _ _ h2 hp]

/-! ## Extraction -/

theorem fieldSum_lt (F : Frame) (order : ByteOrder) (start len k : Nat) : fieldSum F order start len k < 2 ^ k := by
  induction k with
  | zero => simp [fieldSum]
  | succ k ih =>
    have : (frameBit F (fieldBit order start len k)).toNat ≤ 1 := Bool.toNat_le _
    rw [fieldSum, Nat.pow_succ]
    nlinarith [Nat.mul_le_mul_right (2 ^ k) this]

/-- Bit `i` of the loop's sum is bit `i` of the field. -/
theorem testBit_fieldSum (F : Frame) (order : ByteOrder) (start len k i : Nat) :
    (fieldSum F order start len k).testBit i = (decide (i < k) && frameBit F (fieldBit order start len i)) := by
  induction k with
  | zero => simp [fieldSum]
  | succ k ih =>
    have hlt := fieldSum_lt F order start len k
    rw [fieldSum, Nat.add_comm, Nat.mul_comm, Nat.testBit_two_pow_mul_add _ hlt]
    by_cases hik : i < k
    · simp [hik, ih, Nat.lt_succ_of_lt hik]
    · by_cases he : i = k
      · subst he
        cases frameBit F (fieldBit order start len i) <;> simp
      · have h1 : ¬ i < k + 1 := by omega
        obtain ⟨m, hm⟩ : ∃ m, i - k = m + 1 := ⟨i - k - 1, by omega⟩
        simp only [hik, h1, hm, decide_false, Bool.false_and, if_false]
        cases frameBit F (fieldBit order start len k) <;> simp [Nat.testBit_succ]

theorem extractField_unsigned (F : Frame) (start len : Nat) (order : ByteOrder) :
    extractField F start len order false = BitVec.ofNat 64 (fieldSum F order start len len) := by
  simp [extractField]

/-- Bit `i` of an unsigned extraction. -/
theorem getLsbD_extractField_unsigned (F : Frame) {start len : Nat} (order : ByteOrder) (h : len ≤ 64) (i : Nat) :
    (extractField F start len order false).getLsbD i =
      (decide (i < len) && frameBit F (fieldBit order start len i)) := by
  rw [extractField_unsigned, BitVec.getLsbD_ofNat, testBit_fieldSum]
  by_cases hi : i < len
  · simp [hi, Nat.lt_of_lt_of_le hi h]
  · simp [hi]

/-- A signed extraction is the two's complement widening of the unsigned one (40_bitfield R83). -/
theorem extractField_signed (F : Frame) {start len : Nat} (order : ByteOrder) (h1 : 1 ≤ len) (h : len ≤ 64) :
    extractField F start len order true = sextLow len (extractField F start len order false) := by
  have hlt := fieldSum_lt F order start len len
  have h64 : (2 : Nat) ^ len ≤ 2 ^ 64 := Nat.pow_le_pow_right (by omega) h
  have hset : (extractField F start len order false).setWidth len = BitVec.ofNat len (fieldSum F order start len len) := by
    apply BitVec.eq_of_toNat_eq
    rw [extractField_unsigned]
    simp only [BitVec.toNat_setWidth, BitVec.toNat_ofNat]
    rw [Nat.mod_eq_of_lt (Nat.lt_of_lt_of_le hlt h64)]
  rw [sextLow, hset, BitVec.signExtend]
  unfold extractField
  have hpow : (2 : Nat) ^ len = 2 * 2 ^ (len - 1) := by
    rw [← Nat.pow_succ']; congr 1; omega
  have hcast : ((2 : Int) ^ len) = ((2 ^ len : Nat) : Int) := by push_cast; rfl
  have hmod : fieldSum F order start len len % 2 ^ len = fieldSum F order start len len := Nat.mod_eq_of_lt hlt
  rw [BitVec.toInt_eq_toNat_cond]
  simp only [Bool.true_and, decide_eq_true_eq, BitVec.toNat_ofNat, hmod]
  by_cases hc : 2 ^ (len - 1) ≤ fieldSum F order start len len
  · rw [if_pos hc, if_neg (by omega), hcast]
  · rw [if_neg hc, if_pos (by omega)]
    simp

/-- Both kinds of extraction as one equation. -/
theorem extractField_eq (F : Frame) {start len : Nat} (order : ByteOrder) (signed : Bool) (h1 : 1 ≤ len)
    (h : len ≤ 64) :
    extractField F start len order signed =
      if signed then sextLow len (extractField F start len order false) else extractField F start len order false := by
  cases signed
  · rfl
  · simpa using extractField_signed F order h1 h

/-- An extraction depends on the bits of its field alone. -/
theorem extractField_congr {F G : Frame} {start len : Nat} {order : ByteOrder}
    (h : ∀ i, i < len → frameBit F (fieldBit order start len i) = frameBit G (fieldBit order start len i))
    (signed : Bool) : extractField F start len order signed = extractField G start len order signed := by
  have hs : ∀ k, k ≤ len → fieldSum F order start len k = fieldSum G order start len k := by
    intro k
    induction k with
    | zero => intro _; rfl
    | succ k ih => intro hk; rw [fieldSum, fieldSum, ih (by omega), h k (by omega)]
  simp only [extractField, hs len (Nat.le_refl _)]

/-- Reading a field just written gives the low `len` bits of the value (40_bitfield R90 a). -/
theorem extract_insert_unsigned (F : Frame) {start len : Nat} (order : ByteOrder) (v : Raw) (h : start + len ≤ 64) :
    extractField (insertField F start len order v) start len order false = zextLow len v := by
  apply BitVec.eq_of_getLsbD_eq
  intro i hi
  rw [getLsbD_extractField_unsigned _ _ (by omega)]
  by_cases hl : i < len
  · rw [frameBit_insertField_field _ _ _ hl h]
    simp [hl, hi]
  · simp [hl]

end Sys2Proof.Machine
end

