-- ==== Sys2Proof/Laws/ClosedForm.lean ====
section
/-! SUPPORT. LEword and BEword of a frame bit by bit (spec/00_scope.md R8), and the field sum as a quotient and a
remainder of them (spec/20_memory.md R46). -/

namespace Sys2Proof.Machine

theorem getLsbD_frameByte (F : Frame) (b j : Nat) : (frameByte F b).getLsbD j = (decide (j < 8) && frameBit F (b, j)) := by
  simp [frameByte, frameBit]

theorem testBit_frameByte (F : Frame) (b j : Nat) :
    (frameByte F b).toNat.testBit j = (decide (j < 8) && frameBit F (b, j)) := by
  rw [BitVec.testBit_toNat, getLsbD_frameByte]

theorem leWord_lt (F : Frame) (n : Nat) : leWord F n < 2 ^ (8 * n) := by
  induction n with
  | zero => simp [leWord]
  | succ n ih =>
    have := (frameByte F n).isLt
    rw [leWord, show 8 * (n + 1) = 8 * n + 8 by ring, Nat.pow_add]
    nlinarith [Nat.two_pow_pos (8 * n)]

/-- Bit `q` of LEword is bit `q mod 8` of byte `q div 8`. -/
theorem testBit_leWord (F : Frame) (n q : Nat) :
    (leWord F n).testBit q = (decide (q < 8 * n) && frameBit F (q / 8, q % 8)) := by
  induction n with
  | zero => simp [leWord]
  | succ n ih =>
    rw [leWord, Nat.add_comm, Nat.mul_comm, Nat.testBit_two_pow_mul_add _ (leWord_lt F n)]
    by_cases h : q < 8 * n
    · rw [if_pos h, ih]
      simp [h, show q < 8 * (n + 1) by omega]
    · rw [if_neg h, testBit_frameByte]
      by_cases h' : q < 8 * (n + 1)
      · rw [show q / 8 = n by omega, show q % 8 = q - 8 * n by omega]
        simp [h', show q - 8 * n < 8 by omega]
      · simp [h', show ¬ q - 8 * n < 8 by omega]

/-- Bit `q` of BEword is bit `q mod 8` of byte `n - 1 - q div 8`. -/
theorem testBit_beWord (F : Frame) (n q : Nat) :
    (beWord F n).testBit q = (decide (q < 8 * n) && frameBit F (n - 1 - q / 8, q % 8)) := by
  induction n generalizing q with
  | zero => simp [beWord]
  | succ n ih =>
    rw [beWord, show (256 : Nat) = 2 ^ 8 by rfl, Nat.mul_comm, Nat.testBit_two_pow_mul_add _ (frameByte F n).isLt]
    by_cases h : q < 8
    · rw [if_pos h, testBit_frameByte]
      simp [h, show q < 8 * (n + 1) by omega, show q / 8 = 0 by omega, show q % 8 = q by omega]
    · rw [if_neg h, ih]
      congr 1
      · simp only [decide_eq_decide]; omega
      · rw [show n - 1 - (q - 8) / 8 = n + 1 - 1 - q / 8 by omega, show (q - 8) % 8 = q % 8 by omega]

/-- A number is its bits from `a` on, `k` of them, when those bits are its own. -/
theorem eq_div_mod_of_testBit {x w a k : Nat} (hx : x < 2 ^ k) (h : ∀ i, i < k → x.testBit i = w.testBit (a + i)) :
    x = w / 2 ^ a % 2 ^ k := by
  apply Nat.eq_of_testBit_eq
  intro i
  rw [Nat.testBit_mod_two_pow, Nat.testBit_div_two_pow]
  by_cases hi : i < k
  · simp [hi, h i hi, Nat.add_comm]
  · have : x < 2 ^ i := Nat.lt_of_lt_of_le hx (Nat.pow_le_pow_right (by omega) (by omega))
    simp [hi, Nat.testBit_lt_two_pow this]

/-- The closed form of an Intel field (20_memory R46). -/
theorem fieldSum_intel (F : Frame) {n start len : Nat} (h : start + len ≤ 8 * n) :
    fieldSum F .intel start len len = leWord F n / 2 ^ start % 2 ^ len := by
  apply eq_div_mod_of_testBit (fieldSum_lt ..)
  intro i hi
  rw [testBit_fieldSum, testBit_leWord]
  simp [hi, show start + i < 8 * n by omega, fieldBit]

/-- The closed form of a Motorola field (20_memory R46). -/
theorem fieldSum_motorola (F : Frame) {n start len : Nat} (h : start + len ≤ 8 * n) :
    fieldSum F .motorola start len len = beWord F n / 2 ^ (8 * n - start - len) % 2 ^ len := by
  apply eq_div_mod_of_testBit (fieldSum_lt ..)
  intro i hi
  rw [testBit_fieldSum, testBit_beWord]
  have h1 : n - 1 - (8 * n - start - len + i) / 8 = (start + (len - 1 - i)) / 8 := by omega
  have h2 : (8 * n - start - len + i) % 8 = 7 - (start + (len - 1 - i)) % 8 := by omega
  simp [hi, show 8 * n - start - len + i < 8 * n by omega, fieldBit, h1, h2]

/-- Two numbers with the same bits outside a window differ by their windows. -/
theorem add_window_eq {x y a k : Nat} (h : ∀ q, (q < a ∨ a + k ≤ q) → x.testBit q = y.testBit q) :
    x + (y / 2 ^ a % 2 ^ k) * 2 ^ a = y + (x / 2 ^ a % 2 ^ k) * 2 ^ a := by
  have split : ∀ z : Nat, z = z % 2 ^ a + 2 ^ a * (z / 2 ^ a % 2 ^ k) + 2 ^ a * 2 ^ k * (z / 2 ^ (a + k)) := by
    intro z
    have h1 := Nat.mod_add_div z (2 ^ a)
    have h2 := Nat.mod_add_div (z / 2 ^ a) (2 ^ k)
    rw [Nat.div_div_eq_div_mul, ← Nat.pow_add] at h2
    calc z = z % 2 ^ a + 2 ^ a * (z / 2 ^ a) := h1.symm
      _ = z % 2 ^ a + 2 ^ a * (z / 2 ^ a % 2 ^ k + 2 ^ k * (z / 2 ^ (a + k))) := by rw [h2]
      _ = _ := by ring
  have hlow : x % 2 ^ a = y % 2 ^ a := by
    apply Nat.eq_of_testBit_eq
    intro i
    rw [Nat.testBit_mod_two_pow, Nat.testBit_mod_two_pow]
    by_cases hi : i < a
    · simp [hi, h i (.inl hi)]
    · simp [hi]
  have hhigh : x / 2 ^ (a + k) = y / 2 ^ (a + k) := by
    apply Nat.eq_of_testBit_eq
    intro i
    rw [Nat.testBit_div_two_pow, Nat.testBit_div_two_pow]
    exact h _ (.inr (by omega))
  have hx := split x
  have hy := split y
  rw [hlow, hhigh] at hx
  generalize x / 2 ^ a % 2 ^ k = u at *
  generalize y / 2 ^ a % 2 ^ k = w at *
  calc x + w * 2 ^ a = y % 2 ^ a + 2 ^ a * u + 2 ^ a * 2 ^ k * (y / 2 ^ (a + k)) + w * 2 ^ a := by rw [← hx]
    _ = (y % 2 ^ a + 2 ^ a * w + 2 ^ a * 2 ^ k * (y / 2 ^ (a + k))) + u * 2 ^ a := by ring
    _ = y + u * 2 ^ a := by rw [← hy]

end Sys2Proof.Machine
end

