-- ==== Sys2Proof/Laws/RegFile.lean ====
section
/-! SUPPORT. Register files as data: read after write, and that every operation keeps the canonical form. -/

namespace Sys2Proof.Machine

@[simp] theorem RegFile.read_nil (k : Nat) : RegFile.read [] k = none := rfl

theorem RegFile.read_cons (j : Nat) (w : Eng) (r : RegFile) (k : Nat) :
    RegFile.read ((j, w) :: r) k = if j = k then some w else RegFile.read r k := by
  by_cases h : j = k <;> simp [RegFile.read, h]

theorem RegFile.read_write (r : RegFile) (k j : Nat) (v : Eng) (hr : r.Wf) :
    (r.write k v).read j = if j = k then some v else r.read j := by
  induction r with
  | nil => simp [RegFile.write, RegFile.read_cons, eq_comm]
  | cons e r ih =>
    obtain ⟨i, w⟩ := e
    have ih := ih (List.Pairwise.of_cons hr)
    rw [RegFile.write]
    split
    · rw [RegFile.read_cons]; simp [eq_comm]
    · split
      · next h => subst h; simp only [RegFile.read_cons]; split <;> simp_all [eq_comm]
      · next h => rw [RegFile.read_cons, RegFile.read_cons, ih]; split <;> simp_all [eq_comm]

/-- A file lists an index exactly when some entry has it. -/
theorem RegFile.read_isSome {r : RegFile} {k : Nat} : (r.read k).isSome = true ↔ ∃ e ∈ r, e.1 = k := by
  simp [RegFile.read]

theorem RegFile.mem_write {r : RegFile} {k : Nat} {v : Eng} {e : Nat × Eng} (h : e ∈ r.write k v) :
    e = (k, v) ∨ e ∈ r := by
  induction r with
  | nil => simpa [RegFile.write] using h
  | cons a r ih =>
    obtain ⟨i, w⟩ := a
    rw [RegFile.write] at h
    split at h
    · simpa using h
    · split at h
      · simp only [List.mem_cons] at h ⊢; tauto
      · simp only [List.mem_cons] at h ⊢
        rcases h with h | h
        · exact .inr (.inl h)
        · rcases ih h with h | h
          · exact .inl h
          · exact .inr (.inr h)

/-- A write keeps the canonical form. -/
theorem RegFile.wf_write {r : RegFile} (hr : r.Wf) (k : Nat) (v : Eng) : (r.write k v).Wf := by
  induction r with
  | nil => simp [RegFile.write, RegFile.Wf]
  | cons a r ih =>
    obtain ⟨i, w⟩ := a
    obtain ⟨h1, h2⟩ := List.pairwise_cons.1 hr
    rw [RegFile.write]
    split
    · next h =>
      refine List.pairwise_cons.2 ⟨fun e he => ?_, hr⟩
      rcases List.mem_cons.1 he with rfl | he
      · exact h
      · exact Nat.lt_trans h (h1 e he)
    · next h =>
      split
      · next h' => subst h'; exact List.pairwise_cons.2 ⟨h1, h2⟩
      · next h' =>
        refine List.pairwise_cons.2 ⟨fun e he => ?_, ih h2⟩
        rcases RegFile.mem_write he with rfl | he
        · show i < k; omega
        · exact h1 e he

/-- Writes in order keep the canonical form. -/
theorem RegFile.wf_writeAll {r : RegFile} (hr : r.Wf) (ws : List (Nat × Eng)) : (r.writeAll ws).Wf := by
  induction ws generalizing r with
  | nil => exact hr
  | cons w ws ih => exact ih (RegFile.wf_write hr w.1 w.2)

/-- A read after writes at rising indices: the value written there, else the old one. -/
theorem RegFile.read_writeAll {r : RegFile} (hr : r.Wf) {ws : List (Nat × Eng)} (hw : RegFile.Wf ws) (k : Nat) :
    (r.writeAll ws).read k = (RegFile.read ws k).or (r.read k) := by
  induction ws generalizing r with
  | nil => simp [RegFile.writeAll]
  | cons w ws ih =>
    obtain ⟨j, v⟩ := w
    obtain ⟨h1, h2⟩ := List.pairwise_cons.1 hw
    have hstep : r.writeAll ((j, v) :: ws) = (r.write j v).writeAll ws := rfl
    rw [hstep, ih (RegFile.wf_write hr j v) h2, RegFile.read_write _ _ _ _ hr, RegFile.read_cons]
    by_cases hk : j = k
    · subst hk
      have : RegFile.read ws j = none := by
        rw [← Option.not_isSome_iff_eq_none, RegFile.read_isSome]
        rintro ⟨e, he, rfl⟩
        exact absurd (h1 e he) (Nat.lt_irrefl _)
      simp [this]
    · simp [hk, Ne.symm hk]

/-! ## Files built from the descriptor table -/

/-- Entries made of some rows of a table, in index order from `n` on, are in canonical form. -/
theorem wf_zipIdx_map (l : List Desc) (keep : Desc → Bool) (f : Desc → Nat → Eng) (n : Nat) :
    RegFile.Wf (((l.zipIdx n).filter (keep ·.1)).map fun p => (p.2, f p.1 p.2)) ∧
      ∀ e ∈ ((l.zipIdx n).filter (keep ·.1)).map (fun p => (p.2, f p.1 p.2)), n ≤ e.1 := by
  induction l generalizing n with
  | nil => exact ⟨List.Pairwise.nil, by simp⟩
  | cons d l ih =>
    obtain ⟨ih1, ih2⟩ := ih (n + 1)
    rw [List.zipIdx_cons, List.filter_cons]
    split
    · rw [List.map_cons]
      refine ⟨List.pairwise_cons.2 ⟨fun e he => ih2 e he, ih1⟩, fun e he => ?_⟩
      rcases List.mem_cons.1 he with rfl | he
      · exact Nat.le_refl n
      · exact Nat.le_of_succ_le (ih2 e he)
    · exact ⟨ih1, fun e he => Nat.le_of_succ_le (ih2 e he)⟩

theorem read_zipIdx_map (l : List Desc) (keep : Desc → Bool) (f : Desc → Nat → Eng) (n k : Nat) :
    RegFile.read (((l.zipIdx n).filter (keep ·.1)).map fun p => (p.2, f p.1 p.2)) (n + k) =
      ((l[k]?).filter keep).map fun d => f d (n + k) := by
  induction l generalizing n k with
  | nil => simp
  | cons d l ih =>
    rw [List.zipIdx_cons, List.filter_cons]
    cases k with
    | zero =>
      by_cases hd : keep d
      · simp [hd, RegFile.read_cons]
      · have hnone : RegFile.read (((l.zipIdx (n + 1)).filter (keep ·.1)).map fun p => (p.2, f p.1 p.2)) n = none := by
          rw [← Option.not_isSome_iff_eq_none, RegFile.read_isSome]
          rintro ⟨e, he, rfl⟩
          exact absurd ((wf_zipIdx_map l keep f (e.1 + 1)).2 e he) (by omega)
        simp [hd, Option.filter, hnone]
    | succ k =>
      have := ih (n + 1) k
      rw [show n + 1 + k = n + (k + 1) by omega] at this
      by_cases hd : keep d
      · rw [if_pos (by simpa using hd), List.map_cons, RegFile.read_cons, if_neg (by omega), this]
        simp
      · rw [if_neg (by simpa using hd), this]
        simp

/-- CMD[k] of a file built from the table: there for the writable k and for no other (10_state R21). -/
theorem read_cmdFile (c : CodecConfig) (f : Desc → Nat → Eng) (k : Nat) :
    (cmdFile c f).read k = ((c.descs[k]?).filter Desc.wr).map fun d => f d k := by
  simpa [cmdFile, writableRows] using read_zipIdx_map c.descs Desc.wr f 0 k

theorem wf_cmdFile (c : CodecConfig) (f : Desc → Nat → Eng) : (cmdFile c f).Wf :=
  (wf_zipIdx_map c.descs Desc.wr f 0).1

theorem cmdFile_keys (c : CodecConfig) (f : Desc → Nat → Eng) (k : Nat) :
    ((cmdFile c f).read k).isSome = c.writable k := by
  rw [read_cmdFile, CodecConfig.writable]
  cases c.descs[k]? with
  | none => rfl
  | some d => cases h : d.wr <;> simp [Option.filter, h]

/-- A register file of values of a width holds values of that width. -/
theorem cmdFile_fits {c : CodecConfig} {f : Desc → Nat → Eng} {w : Nat}
    (h : ∀ d ∈ c.descs, ∀ k, sint w (f d k) = f d k) {k : Nat} {v : Eng} (hv : (cmdFile c f).read k = some v) :
    sint w v = v := by
  rw [read_cmdFile] at hv
  obtain ⟨d, hd, rfl⟩ := Option.map_eq_some_iff.1 hv
  exact h d (List.mem_of_getElem? (Option.filter_eq_some_iff.1 hd).1) k

/-- The writes of a full PARSE: one for every index below NSIG (42_codec R126). -/
theorem read_parseWrites (c : CodecConfig) (F : Frame) (k : Nat) :
    RegFile.read (parseWrites c F) k = (c.descs[k]?).map fun d => decodeSignal c.par d F := by
  have := read_zipIdx_map c.descs (fun _ => true) (fun d _ => decodeSignal c.par d F) 0 k
  have hf : (c.descs[k]?).filter (fun _ => true) = c.descs[k]? := by cases c.descs[k]? <;> rfl
  simpa [parseWrites, hf] using this

theorem wf_parseWrites (c : CodecConfig) (F : Frame) : RegFile.Wf (parseWrites c F) := by
  have := (wf_zipIdx_map c.descs (fun _ => true) (fun d _ => decodeSignal c.par d F) 0).1
  simpa [parseWrites] using this

/-- The indices of a full PARSE's writes are 0, 1, ..., NSIG-1 in that order (42_codec R126). -/
theorem parseWrites_indices (c : CodecConfig) (F : Frame) :
    (parseWrites c F).map (·.1) = List.range c.nsig := by
  have h : ((·.1) ∘ fun p : Desc × Nat => (p.2, decodeSignal c.par p.1 F)) = Prod.snd := rfl
  rw [parseWrites, List.map_map, h, List.zipIdx_map_snd, ← List.range_eq_range']
  rfl

/-- CD[k] after a full PARSE (42_codec R124). -/
theorem read_cd_parse {r : RegFile} (hr : r.Wf) (c : CodecConfig) (F : Frame) (k : Nat) :
    (r.writeAll (parseWrites c F)).read k = ((c.descs[k]?).map fun d => decodeSignal c.par d F).or (r.read k) := by
  rw [RegFile.read_writeAll hr (wf_parseWrites c F), read_parseWrites]

end Sys2Proof.Machine
end

