-- ==== Sys2Proof/Laws/Construct.lean ====
section
/-! SUPPORT. The construction checks (spec/70_reset_and_hazards.md R163): what a failing check reports and what a
valid configuration guarantees; and what the reset sequence leaves (R162). -/

namespace Sys2Proof.Machine

theorem checkDesc_none {dlen : Nat} {earlier : List Desc} {d : Desc} :
    checkDesc dlen earlier d = none ↔
      ctlReserved d.ctl = 0 ∧ 1 ≤ d.len ∧ d.start + d.len ≤ 8 * dlen ∧ d.scale ≠ 0 ∧
        d.min ≤ d.max ∧ clashes earlier d = false := by
  unfold checkDesc
  repeat' split
  all_goals simp_all <;> omega

/-- A check never reports NONE, nor the cause that only ENCODE's operands raise (60_exceptions R142). -/
theorem checkDesc_cause {dlen : Nat} {earlier : List Desc} {d : Desc} {c : Cause}
    (h : checkDesc dlen earlier d = some c) : c ≠ .noFatal ∧ c ≠ .geometry ∧ c ≠ .lenWide := by
  unfold checkDesc at h
  repeat' split at h
  all_goals simp_all <;> subst h <;> simp

theorem checkDescs_none {dlen : Nat} {earlier : List Desc} {k : Nat} {l : List Desc} :
    checkDescs dlen earlier k l = none ↔
      ∀ i d, l[i]? = some d → checkDesc dlen (earlier ++ l.take i) d = none := by
  induction l generalizing earlier k with
  | nil => simp [checkDescs]
  | cons a l ih =>
    rw [checkDescs]
    split
    · next c hc =>
      refine iff_of_false (by simp) fun h => ?_
      have := h 0 a rfl
      simp [hc] at this
    · next hc =>
      rw [ih]
      constructor
      · intro h i d hd
        cases i with
        | zero => simp only [List.getElem?_cons_zero, Option.some.injEq] at hd; subst hd; simpa using hc
        | succ i => simpa using h i d (by simpa using hd)
      · intro h i d hd
        simpa using h (i + 1) d (by simpa using hd)

/-- The check reported is that of the lowest index that fails one (70_reset_and_hazards R163). -/
theorem checkDescs_some {dlen : Nat} {earlier : List Desc} {k : Nat} {l : List Desc} {c : Cause} {idx : BitVec 8} :
    checkDescs dlen earlier k l = some (c, idx) ↔
      ∃ i d, l[i]? = some d ∧ checkDesc dlen (earlier ++ l.take i) d = some c ∧ idx = BitVec.ofNat 8 (k + i) ∧
        ∀ j e, j < i → l[j]? = some e → checkDesc dlen (earlier ++ l.take j) e = none := by
  induction l generalizing earlier k with
  | nil => simp [checkDescs]
  | cons a l ih =>
    rw [checkDescs]
    split
    · next c' hc =>
      constructor
      · intro h
        simp only [Option.some.injEq, Prod.mk.injEq] at h
        exact ⟨0, a, rfl, by simpa [h.1] using hc, by simp [h.2], fun j _ hj => absurd hj (Nat.not_lt_zero j)⟩
      · rintro ⟨i, d, hd, hcd, hidx, hlow⟩
        cases i with
        | zero =>
          simp only [List.getElem?_cons_zero, Option.some.injEq] at hd
          subst hd
          simp only [List.take_zero, List.append_nil, hc, Option.some.injEq] at hcd
          simp [hcd, hidx]
        | succ i =>
          have := hlow 0 a (Nat.succ_pos i) rfl
          simp [hc] at this
    · next hc =>
      rw [ih]
      constructor
      · rintro ⟨i, d, hd, hcd, hidx, hlow⟩
        refine ⟨i + 1, d, by simpa using hd, by simpa using hcd, by rw [hidx]; congr 1; omega, ?_⟩
        intro j e hj he
        cases j with
        | zero => simp only [List.getElem?_cons_zero, Option.some.injEq] at he; subst he; simpa using hc
        | succ j => simpa using hlow j e (by omega) (by simpa using he)
      · rintro ⟨i, d, hd, hcd, hidx, hlow⟩
        cases i with
        | zero =>
          simp only [List.getElem?_cons_zero, Option.some.injEq] at hd
          subst hd
          simp [hc] at hcd
        | succ i =>
          refine ⟨i, d, by simpa using hd, by simpa using hcd, by rw [hidx]; congr 1; omega, ?_⟩
          intro j e hj he
          simpa using hlow (j + 1) e (by omega) (by simpa using he)

theorem constructionCheck_cause {c : CodecConfig} {cause : Cause} {idx : BitVec 8}
    (h : constructionCheck c = some (cause, idx)) : cause ≠ .noFatal := by
  unfold constructionCheck at h
  split at h
  · simp only [Option.some.injEq, Prod.mk.injEq] at h
    simp [← h.1]
  · obtain ⟨i, d, -, hc, -, -⟩ := checkDescs_some.1 h
    exact (checkDesc_cause hc).1

/-! ## What a valid configuration guarantees -/

theorem valid_iff {c : CodecConfig} :
    c.Valid ↔ 1 ≤ c.dlen.toNat ∧ c.dlen.toNat ≤ 8 ∧ c.nsig ≤ 255 ∧
      ∀ i d, c.descs[i]? = some d → checkDesc c.dlen.toNat (c.descs.take i) d = none := by
  unfold CodecConfig.Valid constructionCheck
  split
  · next h => exact iff_of_false (by simp) (by rintro ⟨h1, h2, h3, -⟩; omega)
  · next h =>
    rw [checkDescs_none]
    simp only [List.nil_append]
    constructor
    · intro h'; exact ⟨by omega, by omega, by omega, h'⟩
    · exact fun h' => h'.2.2.2

theorem valid_dlen {c : CodecConfig} (h : c.Valid) : 1 ≤ c.dlen.toNat ∧ c.dlen.toNat ≤ 8 :=
  ⟨(valid_iff.1 h).1, (valid_iff.1 h).2.1⟩

/-- Every descriptor of a valid configuration meets the source's bound, and scaling by it is defined. -/
theorem valid_desc {c : CodecConfig} (h : c.Valid) {d : Desc} (hd : d ∈ c.descs) :
    1 ≤ d.len ∧ d.start + d.len ≤ 8 * c.dlen.toNat ∧ d.len ≤ 64 ∧ d.start + d.len ≤ 64 ∧ d.scale ≠ 0 ∧
      d.min ≤ d.max := by
  obtain ⟨h1, h8, -, hall⟩ := valid_iff.1 h
  obtain ⟨i, hi⟩ := List.mem_iff_getElem?.1 hd
  obtain ⟨-, a, b, e, f, -⟩ := checkDesc_none.1 (hall i d hi)
  exact ⟨a, b, by omega, by omega, e, f⟩

/-! ## The reset sequence -/

theorem construct_valid {s : State} (h : s.cfg.Valid) :
    s.construct = { s.loadDefaults with status := { s.status with phase := .ready } } := by
  unfold State.construct
  rw [show constructionCheck s.cfg = none from h]

theorem construct_invalid {s : State} {cause : Cause} {idx : BitVec 8}
    (h : constructionCheck s.cfg = some (cause, idx)) :
    s.construct = { s.raiseFatal cause idx with
      cs := Config.freeCs s.draws, cmd := cmdFile s.cfg fun _ k => sint s.cfg.par.wEng (Config.freeCmd s.draws k),
      draws := s.draws + 1 } := by
  unfold State.construct
  rw [h]

@[simp] theorem construct_cfg (s : State) : s.construct.cfg = s.cfg := by
  unfold State.construct; split <;> rfl

@[simp] theorem construct_cd (s : State) : s.construct.cd = s.cd := by
  unfold State.construct; split <;> rfl

@[simp] theorem construct_port (s : State) : s.construct.port = s.port := by
  unfold State.construct; split <;> rfl

@[simp] theorem construct_rsp (s : State) : s.construct.rsp = s.rsp := by
  unfold State.construct; split <;> rfl

@[simp] theorem construct_cdPulses (s : State) : s.construct.cdPulses = s.cdPulses := by
  unfold State.construct; split <;> rfl

@[simp] theorem resetSequence_cfg (s : State) : s.resetSequence.cfg = s.cfg := by simp [State.resetSequence]
@[simp] theorem resetSequence_cd (s : State) : s.resetSequence.cd = s.cd := by simp [State.resetSequence]
@[simp] theorem resetSequence_port (s : State) : s.resetSequence.port = s.port := by simp [State.resetSequence]
@[simp] theorem resetSequence_rsp (s : State) : s.resetSequence.rsp = none := by simp [State.resetSequence]
@[simp] theorem resetSequence_cdPulses (s : State) : s.resetSequence.cdPulses = [] := by simp [State.resetSequence]

/-- Where the reset sequence can end: READY with the defaults, or FATAL with a cause (42_codec R135). -/
theorem construct_cases (s : State) :
    (s.cfg.Valid ∧ s.construct.Ready ∧ s.construct.cs = s.cfg.defBytes ∧
      s.construct.cmd = cmdFile s.cfg (fun d _ => d.defCmd) ∧ s.construct.status = { s.status with phase := .ready }) ∨
    (∃ cause idx, constructionCheck s.cfg = some (cause, idx) ∧ s.construct.status = s.status.raise cause idx) := by
  cases h : constructionCheck s.cfg with
  | none => left; rw [construct_valid h]; exact ⟨h, rfl, rfl, rfl, rfl⟩
  | some p => right; exact ⟨p.1, p.2, rfl, by rw [construct_invalid h]; rfl⟩

end Sys2Proof.Machine
end

