-- ==== Sys2Proof/Laws/PerInstr.lean ====
section
/-! SUPPORT. The per-instruction family EncodeHeader: the header an instruction encodes to selects that instruction's
row of the opcode map, and its FLEN reads back (spec/30_encoding.md R59, R60). -/

namespace Sys2Proof.Laws.EncodeHeader

open Sys2Proof

/-- The FLEN operand of a command, zero where the header field must be zero (30_encoding R60). -/
def flenOf : Instr → BitVec 4
  | .extract flen _ _ _ _ _ => flen
  | .insert flen _ _ _ _ _  => flen
  | .parse flen _           => flen
  | .decode _ _ _ _ | .encode _ _ _ _ _ _ _ | .update | .reset | .getid | .getperiod | .stage _ _ | .rdstate
  | .rdstatus               => 0

def Statement (i : Instr) : Prop :=
  selectRow (encode i).hdr = some i.mnemonic ∧ hdrFlen (encode i).hdr = flenOf i

/-- Every header with a free FLEN selects its row. -/
theorem flen_header : ∀ flen : BitVec 4,
    (selectRow (encodeHeader .extract flen 0) = some .extract ∧ hdrFlen (encodeHeader .extract flen 0) = flen) ∧
    (selectRow (encodeHeader .insert flen 0) = some .insert ∧ hdrFlen (encodeHeader .insert flen 0) = flen) ∧
    (selectRow (encodeHeader .parse flen 0) = some .parse ∧ hdrFlen (encodeHeader .parse flen 0) = flen) := by
  decide

/-- Every header with a free IDX selects its row. -/
theorem idx_header (idx : BitVec 8) :
    selectRow (encodeHeader .stage 0 idx) = some .stage ∧ hdrFlen (encodeHeader .stage 0 idx) = 0 ∧
      hdrIdx (encodeHeader .stage 0 idx) = idx := by
  revert idx
  decide

/-- The headers without an operand select their rows. -/
theorem fixed_header :
    (selectRow (encodeHeader .decode 0 0) = some .decode ∧ hdrFlen (encodeHeader .decode 0 0) = 0) ∧
    (selectRow (encodeHeader .encode 0 0) = some .encode ∧ hdrFlen (encodeHeader .encode 0 0) = 0) := by
  decide

theorem extract (flen : BitVec 4) (start len : BitVec 8) (order : ByteOrder) (signed : Bool) (frame : Frame) :
    Statement (.extract flen start len order signed frame) := (flen_header flen).1

theorem insert (flen : BitVec 4) (start len : BitVec 8) (order : ByteOrder) (value : Raw) (frame : Frame) :
    Statement (.insert flen start len order value frame) := (flen_header flen).2.1

theorem decode (raw : Raw) (signed : Bool) (scale offset : Coef) : Statement (.decode raw signed scale offset) :=
  fixed_header.1

theorem encode (eng : Eng) (scale offset : Coef) (len : BitVec 8) (signed : Bool) (min max : Eng) :
    Statement (.encode eng scale offset len signed min max) := fixed_header.2

theorem parse (flen : BitVec 4) (frame : Frame) : Statement (.parse flen frame) := (flen_header flen).2.2

theorem update : Statement .update := ⟨by decide, by decide⟩
theorem reset : Statement .reset := ⟨by decide, by decide⟩
theorem getid : Statement .getid := ⟨by decide, by decide⟩
theorem getperiod : Statement .getperiod := ⟨by decide, by decide⟩

theorem stage (idx : BitVec 8) (eng : Eng) : Statement (.stage idx eng) := ⟨(idx_header idx).1, (idx_header idx).2.1⟩

theorem rdstate : Statement .rdstate := ⟨by decide, by decide⟩
theorem rdstatus : Statement .rdstatus := ⟨by decide, by decide⟩

end Sys2Proof.Laws.EncodeHeader
end

