-- ==== Sys2Proof/Laws/Decode.lean ====
section
/-! SUPPORT. The fields of a control word that the encoder wrote, the fields of a header a row selects, and what a legal
record decodes to (spec/30_encoding.md R60, R63, R69). -/

namespace Sys2Proof

/-! ## Control words -/

/-- The control word the encoder writes, bit by bit (30_encoding R63). -/
theorem getLsbD_encodeDesc (start len : BitVec 8) (order : ByteOrder) (signed : Bool) (q : Nat) :
    (encodeDesc start len order signed).getLsbD q =
      if q < 8 then start.getLsbD q
      else if q < 16 then len.getLsbD (q - 8)
      else if q = 16 then decide (order = .motorola)
      else if q = 17 then signed
      else false := by
  have h : (encodeDesc start len order signed).getLsbD q =
      (0#14 ++ BitVec.ofBool signed ++ order.bit ++ len ++ start).getLsbD q := rfl
  rw [h]
  simp only [BitVec.getLsbD_append]
  by_cases h1 : q < 8
  · simp [h1]
  by_cases h2 : q < 16
  · simp [h1, h2, show q - 8 < 8 by omega]
  by_cases h3 : q = 16
  · subst h3; cases order <;> simp [ByteOrder.bit]
  by_cases h4 : q = 17
  · subst h4; cases signed <;> simp
  · simp [h1, h2, h3, h4, show ¬ q - 8 < 8 by omega, show ¬ q - 8 - 8 < 1 by omega, show ¬ q - 8 - 8 - 1 < 1 by omega]

@[simp] theorem ctlStart_encodeDesc (start len : BitVec 8) (order : ByteOrder) (signed : Bool) :
    ctlStart (encodeDesc start len order signed) = start := by
  apply BitVec.eq_of_getLsbD_eq
  intro i hi
  rw [ctlStart, BitVec.getLsbD_extractLsb', getLsbD_encodeDesc]
  simp [hi]

@[simp] theorem ctlLen_encodeDesc (start len : BitVec 8) (order : ByteOrder) (signed : Bool) :
    ctlLen (encodeDesc start len order signed) = len := by
  apply BitVec.eq_of_getLsbD_eq
  intro i hi
  rw [ctlLen, BitVec.getLsbD_extractLsb', getLsbD_encodeDesc]
  simp [hi, show 8 + i < 16 by omega]

@[simp] theorem ctlOrder_encodeDesc (start len : BitVec 8) (order : ByteOrder) (signed : Bool) :
    ctlOrder (encodeDesc start len order signed) = order := by
  rw [ctlOrder, getLsbD_encodeDesc]
  cases order <;> simp

@[simp] theorem ctlSigned_encodeDesc (start len : BitVec 8) (order : ByteOrder) (signed : Bool) :
    ctlSigned (encodeDesc start len order signed) = signed := by
  rw [ctlSigned, getLsbD_encodeDesc]
  simp

@[simp] theorem descReserved_encodeDesc (start len : BitVec 8) (order : ByteOrder) (signed : Bool) :
    descReserved (encodeDesc start len order signed) = 0 := by
  apply BitVec.eq_of_getLsbD_eq
  intro i hi
  rw [descReserved, BitVec.getLsbD_extractLsb', getLsbD_encodeDesc]
  simp [show ¬ 18 + i < 8 by omega, show ¬ 18 + i < 16 by omega, show ¬ 18 + i = 16 by omega,
    show ¬ 18 + i = 17 by omega]

/-! ## Headers -/

/-- A selected row is a row of the table that matches (30_encoding R60). -/
theorem selectRow_some {h : Header} {m : Mnemonic} (hm : selectRow h = some m) :
    ∃ r ∈ opcodeTable, r.mnemonic = m ∧ h &&& r.mask = r.pattern := by
  rw [selectRow, Option.map_eq_some_iff] at hm
  obtain ⟨r, hr, rfl⟩ := hm
  exact ⟨r, List.mem_of_find?_eq_some hr, rfl, by simpa [OpRow.selects] using List.find?_some hr⟩

/-- No header matches two rows: their patterns differ in a bit that both masks keep. -/
theorem opcodeTable_disjoint :
    ∀ r ∈ opcodeTable, ∀ r' ∈ opcodeTable, r.mask &&& r'.pattern = r'.mask &&& r.pattern → r.mnemonic = r'.mnemonic := by
  decide

theorem opcodeTable_mnemonic : ∀ r ∈ opcodeTable, ∀ r' ∈ opcodeTable, r.mnemonic = r'.mnemonic → r = r' := by decide

/-- A row that matches is the row selected (30_encoding R60). -/
theorem selectRow_of_match {h : Header} {r : OpRow} (hr : r ∈ opcodeTable) (hm : h &&& r.mask = r.pattern) :
    selectRow h = some r.mnemonic := by
  have hsel : r.selects h = true := by simpa [OpRow.selects] using hm
  cases hf : selectRow h with
  | none =>
    rw [selectRow, Option.map_eq_none_iff, List.find?_eq_none] at hf
    exact absurd hsel (hf r hr)
  | some m =>
    obtain ⟨r', hr', rfl, hm'⟩ := selectRow_some hf
    congr 1
    refine opcodeTable_disjoint r' hr' r hr ?_
    rw [← hm, ← hm', ← BitVec.and_assoc, ← BitVec.and_assoc, BitVec.and_comm r'.mask h, BitVec.and_comm r.mask h,
      BitVec.and_assoc, BitVec.and_assoc, BitVec.and_comm r.mask r'.mask]

theorem selectRow_iff {h : Header} {m : Mnemonic} :
    selectRow h = some m ↔ ∃ r ∈ opcodeTable, r.mnemonic = m ∧ h &&& r.mask = r.pattern :=
  ⟨selectRow_some, fun ⟨_, hr, hm, hmm⟩ => hm ▸ selectRow_of_match hr hmm⟩

/-- RDSTATUS is the exact header 0xC000 (42_codec R134). -/
theorem selectRow_rdstatus {h : Header} : selectRow h = some .rdstatus ↔ h = 0xC000 := by
  have hall : ∀ x : Header, x &&& 0xFFFF = x := fun x => BitVec.and_allOnes
  constructor
  · intro hm
    obtain ⟨r, hr, hrm, hmm⟩ := selectRow_some hm
    have : r = ⟨.rdstatus, 0xC000, 0xFFFF⟩ :=
      opcodeTable_mnemonic r hr ⟨.rdstatus, 0xC000, 0xFFFF⟩ (by decide) hrm
    subst this
    have hmm' : h &&& 0xFFFF = 0xC000 := hmm
    rwa [hall] at hmm'
  · rintro rfl
    decide

theorem opcodeTable_fields : ∀ r ∈ opcodeTable,
    (r.mask.extractLsb' 12 4 = 0xF ∧ r.pattern.extractLsb' 12 4 = r.mnemonic.opc) ∧
    (r.mnemonic = .extract ∨ r.mnemonic = .insert ∨ r.mnemonic = .parse ∨
      (r.mask.extractLsb' 8 4 = 0xF ∧ r.pattern.extractLsb' 8 4 = 0)) ∧
    (r.mnemonic = .stage ∨ (r.mask.extractLsb' 0 8 = 0xFF ∧ r.pattern.extractLsb' 0 8 = 0)) := by
  decide

/-- The three fields of a selected header: OPC is the row's, FLEN and IDX are zero where they are no operand
(30_encoding R60). -/
theorem header_fields {h : Header} {m : Mnemonic} (hm : selectRow h = some m) :
    h.extractLsb' 12 4 = m.opc ∧ (m = .extract ∨ m = .insert ∨ m = .parse ∨ hdrFlen h = 0) ∧
      (m = .stage ∨ hdrIdx h = 0) := by
  obtain ⟨r, hr, rfl, hmm⟩ := selectRow_some hm
  obtain ⟨⟨a1, a2⟩, b, c⟩ := opcodeTable_fields r hr
  have ones4 : ∀ x : BitVec 4, x &&& 0xF = x := fun x => BitVec.and_allOnes
  have ones8 : ∀ x : BitVec 8, x &&& 0xFF = x := fun x => BitVec.and_allOnes
  refine ⟨?_, ?_, ?_⟩
  · rw [← a2, ← hmm, BitVec.extractLsb'_and, a1, ones4]
  · rcases b with b | b | b | ⟨b1, b2⟩
    · exact .inl b
    · exact .inr (.inl b)
    · exact .inr (.inr (.inl b))
    · refine .inr (.inr (.inr ?_))
      rw [hdrFlen, ← ones4 (h.extractLsb' 8 4), ← b1, ← BitVec.extractLsb'_and, hmm, b2]
  · rcases c with c | ⟨c1, c2⟩
    · exact .inl c
    · refine .inr ?_
      rw [hdrIdx, ← ones8 (h.extractLsb' 0 8), ← c1, ← BitVec.extractLsb'_and, hmm, c2]

/-- A header is its three fields side by side (30_encoding R59). -/
theorem header_eq (h : Header) : h = h.extractLsb' 12 4 ++ hdrFlen h ++ hdrIdx h := by
  apply BitVec.eq_of_getLsbD_eq
  intro q hq
  simp only [BitVec.getLsbD_append, hdrFlen, hdrIdx, BitVec.getLsbD_extractLsb']
  by_cases h1 : q < 8
  · simp [h1]
  by_cases h2 : q - 8 < 4
  · simp [h1, h2, show 8 + (q - 8) = q by omega]
  · simp [h1, h2, show 12 + (q - 8 - 4) = q by omega, show q - 8 - 4 < 4 by omega]

/-- A selected header is the encoder's header of its fields. -/
theorem encodeHeader_of_row {h : Header} {m : Mnemonic} (hm : selectRow h = some m) :
    encodeHeader m (hdrFlen h) (hdrIdx h) = h := by
  rw [encodeHeader, ← (header_fields hm).1, ← header_eq]

/-! ## Decoding -/

theorem operandsOf_mnemonic (m : Mnemonic) (c : Command) : (operandsOf m c).mnemonic = m := by
  cases m <;> rfl

/-- What a legal record is: a row, a frame size of at most eight, reserved bits zero (30_encoding R69). -/
theorem decode_ok {c : Command} {i : Instr} :
    decode c = .ok i ↔ ∃ m, selectRow c.hdr = some m ∧
      (m.hasFrameSize = true → (hdrFlen c.hdr).toNat ≤ 8) ∧ (m.isPure = true → descReserved c.desc = 0) ∧
      i = operandsOf m c := by
  unfold decode
  cases hm : selectRow c.hdr with
  | none => simp
  | some m =>
    simp only [Option.some.injEq, exists_eq_left']
    by_cases h1 : m.hasFrameSize = true ∧ 8 < (hdrFlen c.hdr).toNat
    · simp only [h1.1, h1.2, decide_true, Bool.and_self, if_true]
      refine iff_of_false (by simp) ?_
      rintro ⟨ha, -, -⟩
      have := ha trivial
      omega
    · rw [if_neg (by simpa using h1)]
      by_cases h2 : m.isPure = true ∧ descReserved c.desc ≠ 0
      · rw [if_pos (by simpa using h2)]
        refine iff_of_false (by simp) ?_
        rintro ⟨-, hb, -⟩
        exact h2.2 (hb h2.1)
      · rw [if_neg (by simpa using h2)]
        simp only [Except.ok.injEq]
        constructor
        · rintro rfl
          exact ⟨fun h => by by_contra hc; exact h1 ⟨h, by omega⟩, fun h => by by_contra hc; exact h2 ⟨h, hc⟩, rfl⟩
        · rintro ⟨-, -, rfl⟩
          rfl

end Sys2Proof
end

