-- ==== Sys2Proof/Laws/Scaler.lean ====
section
/-! SUPPORT. What the scaler's functions do (spec/41_transform.md): rounding to the nearest, the ends of the two
clamps, and that no pattern overflows. -/

namespace Sys2Proof.Machine

/-! ## Patterns of a given width -/

/-- A number in the range of `w` bits is its own pattern's reading. -/
theorem sint_of_mem {w : Nat} {z : Int} (hw : 1 ≤ w) (h1 : -(2 ^ (w - 1)) ≤ z) (h2 : z < 2 ^ (w - 1)) :
    sint w z = z := by
  have hp : ((2 : Int) ^ w) = 2 * 2 ^ (w - 1) := by rw [← pow_succ']; congr 1; omega
  rw [sint, BitVec.toInt_ofInt]
  apply Int.bmod_eq_of_le <;> push_cast <;> rw [hp] <;> omega

theorem sint_mem (w : Nat) (z : Int) : -(2 ^ (w - 1)) ≤ sint w z ∧ sint w z < 2 ^ (w - 1) := by
  have h1 := BitVec.le_toInt (BitVec.ofInt w z)
  have h2 := BitVec.toInt_lt (x := BitVec.ofInt w z)
  exact ⟨h1, h2⟩

@[simp] theorem sint_sint (w : Nat) (z : Int) : sint w (sint w z) = sint w z := by
  simp only [sint, BitVec.ofInt_toInt]

/-! ## Rounding -/

theorem roundPos_spec {n d : Int} (hd : 0 < d) :
    2 * (roundPos n d * d - n) ≤ d ∧ -d ≤ 2 * (roundPos n d * d - n) ∧
      (0 ≤ n → 2 * (roundPos n d * d - n) ≠ -d) ∧ (n < 0 → 2 * (roundPos n d * d - n) ≠ d) := by
  unfold roundPos
  split
  · next hn =>
    have h1 := Int.mul_ediv_add_emod (2 * n + d) (2 * d)
    have h2 := Int.emod_nonneg (2 * n + d) (show (2 * d : Int) ≠ 0 by omega)
    have h3 := Int.emod_lt_of_pos (2 * n + d) (show (0 : Int) < 2 * d by omega)
    generalize (2 * n + d) / (2 * d) = q at *
    have h4 : 2 * d * q = 2 * (q * d) := by ring
    generalize q * d = m at *
    generalize (2 * n + d) % (2 * d) = r at *
    refine ⟨by omega, by omega, by omega, by omega⟩
  · next hn =>
    have h1 := Int.mul_ediv_add_emod (-2 * n + d) (2 * d)
    have h2 := Int.emod_nonneg (-2 * n + d) (show (2 * d : Int) ≠ 0 by omega)
    have h3 := Int.emod_lt_of_pos (-2 * n + d) (show (0 : Int) < 2 * d by omega)
    generalize (-2 * n + d) / (2 * d) = q at *
    have h4 : 2 * d * q = 2 * (q * d) := by ring
    have h5 : -q * d = -(q * d) := by ring
    rw [h5]
    generalize q * d = m at *
    generalize (-2 * n + d) % (2 * d) = r at *
    refine ⟨by omega, by omega, by omega, by omega⟩

/-- round_haz is within half a divisor (41_transform R97). -/
theorem roundHaz_near {n d : Int} (hd : d ≠ 0) :
    2 * (roundHaz n d * d - n) ≤ |d| ∧ -|d| ≤ 2 * (roundHaz n d * d - n) := by
  unfold roundHaz
  split
  · next h =>
    obtain ⟨h1, h2, -, -⟩ := roundPos_spec (n := -n) (show 0 < -d by omega)
    rw [abs_of_neg h]
    have : roundPos (-n) (-d) * -d = -(roundPos (-n) (-d) * d) := by ring
    omega
  · obtain ⟨h1, h2, -, -⟩ := roundPos_spec (n := n) (show 0 < d by omega)
    rw [abs_of_pos (by omega)]
    omega

theorem roundHaz_neg_left {n d : Int} (hd : d ≠ 0) : roundHaz (-n) d = -roundHaz n d := by
  have key : ∀ {n d : Int}, 0 < d → roundPos (-n) d = -roundPos n d := by
    intro n d hd
    rcases eq_or_ne n 0 with rfl | hn
    · have : d / (2 * d) = 0 := Int.ediv_eq_zero_of_lt (by omega) (by omega)
      simp [roundPos, this]
    obtain ⟨a1, a2, a3, a4⟩ := roundPos_spec (n := n) hd
    obtain ⟨b1, b2, b3, b4⟩ := roundPos_spec (n := -n) hd
    generalize roundPos (-n) d = x at *
    generalize roundPos n d = y at *
    have hsum : (x + y) * d = x * d + y * d := by ring
    rcases Int.lt_trichotomy (x + y) 0 with h | h | h
    · have : (x + y) * d ≤ -d := by nlinarith
      omega
    · omega
    · have : d ≤ (x + y) * d := by nlinarith
      omega
  unfold roundHaz
  split
  · exact key (by omega)
  · exact key (by omega)

theorem roundHaz_neg_right {n d : Int} (hd : d ≠ 0) : roundHaz n (-d) = -roundHaz n d := by
  have h2 := roundHaz_neg_left (n := n) hd
  have h3 : roundHaz n (-d) = roundHaz (-n) d := by
    unfold roundHaz
    by_cases h : d < 0
    · rw [if_neg (by omega), if_pos h]; simp
    · rw [if_pos (by omega), if_neg h]; simp
  rw [h3, h2]

/-- The integer nearest to `n / d` is unique but for ties. -/
theorem roundHaz_unique {n d q : Int} (hd : d ≠ 0) (h1 : 2 * (q * d - n) < |d|) (h2 : -|d| < 2 * (q * d - n)) :
    roundHaz n d = q := by
  obtain ⟨h3, h4⟩ := roundHaz_near (n := n) hd
  generalize roundHaz n d = r at *
  have hpos : 0 < |d| := abs_pos.2 hd
  have hsub : (r - q) * d = r * d - q * d := by ring
  have hlt : |(r - q) * d| < |d| := by rw [abs_lt]; omega
  rw [abs_mul] at hlt
  have : |r - q| < 1 := by
    by_contra hc
    have : 1 ≤ |r - q| := by omega
    nlinarith
  have := abs_lt.1 this
  omega

theorem roundEvenPos_spec {n d : Int} (hd : 0 < d) :
    2 * (roundEvenPos n d * d - n) ≤ d ∧ -d ≤ 2 * (roundEvenPos n d * d - n) ∧
      ((2 * (roundEvenPos n d * d - n) = d ∨ 2 * (roundEvenPos n d * d - n) = -d) → roundEvenPos n d % 2 = 0) := by
  have h1 := Int.mul_ediv_add_emod n d
  have h2 := Int.emod_nonneg n (show d ≠ 0 by omega)
  have h3 := Int.emod_lt_of_pos n hd
  unfold roundEvenPos
  generalize n / d = q at *
  generalize n % d = r at *
  have h4 : q * d = d * q := by ring
  have h5 : (q + 1) * d = d * q + d := by ring
  generalize d * q = m at *
  split
  · rw [h4]; omega
  split
  · rw [h5]; omega
  split
  · rw [h4]; omega
  · rw [h5]; omega

theorem roundHalfEven_spec {n d : Int} (hd : d ≠ 0) :
    2 * (roundBy .halfEven n d * d - n) ≤ |d| ∧ -|d| ≤ 2 * (roundBy .halfEven n d * d - n) ∧
      ((2 * (roundBy .halfEven n d * d - n) = |d| ∨ 2 * (roundBy .halfEven n d * d - n) = -|d|) →
        roundBy .halfEven n d % 2 = 0) := by
  simp only [roundBy]
  split
  · next h =>
    obtain ⟨h1, h2, h3⟩ := roundEvenPos_spec (n := -n) (show 0 < -d by omega)
    rw [abs_of_neg h]
    have : roundEvenPos (-n) (-d) * -d = -(roundEvenPos (-n) (-d) * d) := by ring
    omega
  · obtain ⟨h1, h2, h3⟩ := roundEvenPos_spec (n := n) (show 0 < d by omega)
    rw [abs_of_pos (by omega)]
    omega

/-- Both rules to nearest are within half a divisor. -/
theorem roundBy_near {r : RoundRule} (hr : r = .halfAway ∨ r = .halfEven) {n d : Int} (hd : d ≠ 0) :
    2 * |roundBy r n d * d - n| ≤ |d| := by
  have key : 2 * (roundBy r n d * d - n) ≤ |d| ∧ -|d| ≤ 2 * (roundBy r n d * d - n) := by
    rcases hr with rfl | rfl
    · exact roundHaz_near hd
    · exact ⟨(roundHalfEven_spec hd).1, (roundHalfEven_spec hd).2.1⟩
  have : |roundBy r n d * d - n| * 2 ≤ |d| := by
    rw [← abs_two, ← abs_mul, abs_le]
    omega
  omega

/-- Truncation goes no further from zero, and stays within one divisor. -/
theorem roundTowardZero_spec {n d : Int} (hd : d ≠ 0) :
    |roundBy .towardZero n d * d| ≤ |n| ∧ |roundBy .towardZero n d * d - n| < |d| := by
  have h1 : n.tdiv d * d - n = -n.tmod d := by
    have := Int.mul_tdiv_add_tmod n d
    have h : n.tdiv d * d = d * n.tdiv d := by ring
    omega
  simp only [roundBy]
  constructor
  · have := Int.natAbs_tdiv_le_natAbs n d
    have h2 : (n.tdiv d * d).natAbs = n.natAbs / d.natAbs * d.natAbs := by
      rw [Int.natAbs_mul, Int.natAbs_tdiv]; rfl
    have h3 := Nat.div_mul_le_self n.natAbs d.natAbs
    rw [Int.abs_eq_natAbs, Int.abs_eq_natAbs]
    omega
  · rw [h1, abs_neg, Int.abs_eq_natAbs, Int.abs_eq_natAbs, Int.natAbs_tmod]
    have : 0 < d.natAbs := Int.natAbs_pos.2 hd
    exact_mod_cast Nat.mod_lt _ this

/-! ## Clamping -/

theorem clamp_mem {lo hi : Int} (h : lo ≤ hi) (v : Int) : lo ≤ clamp v lo hi ∧ clamp v lo hi ≤ hi := by
  unfold clamp; split
  · omega
  · split <;> omega

theorem clamp_of_mem {v lo hi : Int} (h1 : lo ≤ v) (h2 : v ≤ hi) : clamp v lo hi = v := by
  unfold clamp; rw [if_neg (by omega), if_neg (by omega)]

theorem clamp_of_ge {v lo hi : Int} (h : lo ≤ hi) (hv : hi ≤ v) : clamp v lo hi = hi := by
  unfold clamp; split
  · omega
  · split <;> omega

theorem clamp_of_le {v lo hi : Int} (hv : v ≤ lo) (h : lo ≤ hi) : clamp v lo hi = lo := by
  unfold clamp; split
  · rfl
  · split <;> omega

/-! ## The field's range -/

/-- The two readings of SIGNED_CLAMP differ by the most negative code. -/
theorem fieldLo_eq (c : SignedClamp) (len : Nat) (signed : Bool) :
    fieldLo c len signed = if signed = true then -(2 ^ (len - 1)) + (if c = .symmetric then 1 else 0) else 0 := by
  cases c <;> cases signed <;> simp [fieldLo]; omega

theorem fieldLo_bounds (c : SignedClamp) (len : Nat) :
    -(2 ^ (len - 1)) ≤ fieldLo c len true ∧ fieldLo c len true ≤ -(2 ^ (len - 1)) + 1 := by
  cases c <;> simp [fieldLo]

theorem fieldLo_le_fieldHi (c : SignedClamp) (len : Nat) (signed : Bool) : fieldLo c len signed ≤ fieldHi len signed := by
  have h1 : (1 : Int) ≤ 2 ^ (len - 1) := by exact_mod_cast Nat.one_le_two_pow
  have h2 : (1 : Int) ≤ 2 ^ len := by exact_mod_cast Nat.one_le_two_pow
  cases signed
  · simp [fieldLo, fieldHi]; omega
  · have := fieldLo_bounds c len
    simp only [fieldHi, if_true]
    omega

/-- The saturated integer lies in the field's range (41_transform R98, R100). -/
theorem encodeInt_mem (p : Params) (E S O : Int) (len : Nat) (signed : Bool) (MIN MAX : Int) :
    fieldLo p.signedClamp len signed ≤ encodeInt p E S O len signed MIN MAX ∧
      encodeInt p E S O len signed MIN MAX ≤ fieldHi len signed :=
  clamp_mem (fieldLo_le_fieldHi _ len signed) _

/-- An integer in the range of a field of at most 64 bits survives the 64-bit pattern (41_transform R105). -/
theorem rawInt_ofInt {len : Nat} (h1 : 1 ≤ len) (h : len ≤ 64) {c : SignedClamp} {signed : Bool} {z : Int}
    (hlo : fieldLo c len signed ≤ z) (hhi : z ≤ fieldHi len signed) : rawInt (BitVec.ofInt 64 z) signed = z := by
  have hp1 : ((2 : Int) ^ (len - 1)) ≤ 2 ^ 63 := by
    exact_mod_cast Nat.pow_le_pow_right (by omega) (show len - 1 ≤ 63 by omega)
  have hp2 : ((2 : Int) ^ len) ≤ 2 ^ 64 := by
    exact_mod_cast Nat.pow_le_pow_right (by omega) h
  cases signed
  · simp only [fieldLo, fieldHi, Bool.false_eq_true, if_false] at hlo hhi
    simp only [rawInt, Bool.false_eq_true, if_false, BitVec.toNat_ofInt]
    have : z % ((2 ^ 64 : Nat) : Int) = z := Int.emod_eq_of_lt hlo (by push_cast; omega)
    rw [this]; omega
  · replace hlo := le_trans (fieldLo_bounds c len).1 hlo
    simp only [fieldHi, if_true] at hhi
    simp only [rawInt, if_true, BitVec.toInt_ofInt]
    apply Int.bmod_eq_of_le <;> push_cast <;> omega

/-- Placing a saturated integer in its field and reading the field back gives the integer again
(40_bitfield R90 a, 41_transform R106). -/
theorem rawInt_field {len : Nat} (h1 : 1 ≤ len) (h : len ≤ 64) {c : SignedClamp} {signed : Bool} {z : Int}
    (hlo : fieldLo c len signed ≤ z) (hhi : z ≤ fieldHi len signed) :
    rawInt (if signed then sextLow len (BitVec.ofInt 64 z) else zextLow len (BitVec.ofInt 64 z)) signed = z := by
  have hw : (BitVec.ofInt 64 z).setWidth len = BitVec.ofInt len z := by
    apply BitVec.eq_of_toNat_eq
    simp only [BitVec.toNat_setWidth, BitVec.toNat_ofInt]
    have hdvd : ((2 ^ len : Nat) : Int) ∣ ((2 ^ 64 : Nat) : Int) := by
      exact_mod_cast Nat.pow_dvd_pow 2 h
    have hnn : 0 ≤ z % ((2 ^ 64 : Nat) : Int) := Int.emod_nonneg _ (by positivity)
    have he := congrArg Int.toNat (Int.emod_emod_of_dvd z hdvd)
    rw [Int.toNat_emod hnn (by positivity), Int.toNat_natCast] at he
    exact he
  have hpow : ((2 : Int) ^ len) = 2 * 2 ^ (len - 1) := by
    rw [← pow_succ']; congr 1; omega
  cases signed
  · simp only [fieldLo, fieldHi, Bool.false_eq_true, if_false] at hlo hhi
    simp only [rawInt, Bool.false_eq_true, if_false, zextLow, hw, BitVec.toNat_setWidth, BitVec.toNat_ofInt]
    have h2 : z % ((2 ^ len : Nat) : Int) = z := Int.emod_eq_of_lt hlo (by push_cast; omega)
    rw [h2]
    have h3 : z.toNat < 2 ^ 64 := by
      have h4 : (2 : Nat) ^ len ≤ 2 ^ 64 := Nat.pow_le_pow_right (by omega) h
      have h5 : (z.toNat : Int) < ((2 ^ len : Nat) : Int) := by push_cast; omega
      have : z.toNat < 2 ^ len := by exact_mod_cast h5
      omega
    rw [Nat.mod_eq_of_lt h3]; omega
  · replace hlo := le_trans (fieldLo_bounds c len).1 hlo
    simp only [fieldHi, if_true] at hhi
    simp only [rawInt, if_true, sextLow, hw]
    rw [BitVec.toInt_signExtend_of_le h, BitVec.toInt_ofInt]
    apply Int.bmod_eq_of_le <;> push_cast <;> rw [hpow] <;> omega

/-! ## Decoding -/

theorem rawInt_bounds (raw : Raw) (signed : Bool) : -(2 ^ 63) ≤ rawInt raw signed ∧ rawInt raw signed < 2 ^ 64 := by
  cases signed
  · have := raw.isLt
    simp only [rawInt, Bool.false_eq_true, if_false]; omega
  · have h1 := BitVec.le_toInt raw
    have h2 := BitVec.toInt_lt (x := raw)
    simp only [rawInt, if_true]; omega

/-- The exact result of decoding fits a two's complement word of W_RAW + W_COEF + 1 bits (41_transform R94). -/
theorem abs_decodeValue_lt {w : Nat} (raw : Raw) (signed : Bool) {S O : Int} (hS : sint w S = S) (hO : sint w O = O) :
    |decodeValue raw signed S O| < 2 ^ (64 + w) := by
  obtain ⟨h1, h2⟩ := rawInt_bounds raw signed
  unfold decodeValue
  generalize rawInt raw signed = r at *
  rcases Nat.eq_zero_or_pos w with rfl | hw
  · have z : ∀ x : Int, sint 0 x = 0 := fun x => by simp [sint, BitVec.toInt_zero_length]
    rw [z] at hS hO
    subst hS; subst hO
    simp
  · obtain ⟨h3, h4⟩ := sint_mem w S
    obtain ⟨h5, h6⟩ := sint_mem w O
    rw [hS] at h3 h4
    rw [hO] at h5 h6
    have hp : (2 : Int) ^ (64 + w) = 2 ^ 65 * 2 ^ (w - 1) := by rw [← pow_add]; congr 1; omega
    have hpos : (1 : Int) ≤ 2 ^ (w - 1) := by exact_mod_cast Nat.one_le_two_pow
    rw [hp, abs_lt]
    generalize (2 : Int) ^ (w - 1) = P at *
    norm_num at h1 h2 ⊢
    constructor <;> nlinarith

/-- So the W_ENG-bit pattern reads back as the exact result (41_transform R94, 00_scope R6). -/
theorem sint_decodeValue {w W : Nat} (hW : 64 + w + 1 ≤ W) (raw : Raw) (signed : Bool) {S O : Int} (hS : sint w S = S)
    (hO : sint w O = O) : sint W (decodeValue raw signed S O) = decodeValue raw signed S O := by
  have h := abs_lt.1 (abs_decodeValue_lt raw signed hS hO)
  have hp : (2 : Int) ^ (64 + w) ≤ 2 ^ (W - 1) := by
    exact_mod_cast Nat.pow_le_pow_right (by omega) (show 64 + w ≤ W - 1 by omega)
  exact sint_of_mem (by omega) (by omega) (by omega)

end Sys2Proof.Machine
end

