-- ==== Sys2Proof/Laws/Exec.lean ====
section
/-! SUPPORT. Said once: what exec answers in each phase. Every later proof about exec or step cites these lemmas and
does not unfold a meaning. -/

namespace Sys2Proof.Machine

/-- The state a command leaves when it is executed in READY. -/
def readyEffect : Instr → State → State
  | .extract flen start len order signed frame, s => extractReady flen start len order signed frame s
  | .insert flen start len order value frame, s   => insertReady flen start len order value frame s
  | .decode raw signed scale offset, s => decodeReady raw signed scale offset s
  | .encode eng scale offset len signed min max, s => encodeReady eng scale offset len signed min max s
  | .parse flen frame, s => parseReady flen frame s
  | .update, s    => updateReady s
  | .reset, s     => s.loadDefaults.respond (Response.bare .ok)
  | .getid, s     => s.respond (Response.okData s.cfg.id.toNat)
  | .getperiod, s => s.respond (Response.okData s.cfg.period.toNat)
  | .stage idx eng, s => stageReady idx eng s
  | .rdstate, s   => s.respond (Response.okFrame s.cs s.cfg.dlen)
  | .rdstatus, s  => s.respond (Response.okData s.status.word.toNat)

theorem exec_ready {s : State} (h : s.Ready) (i : Instr) : exec i s = .next (readyEffect i s) := by
  cases i
  case rdstatus => simp only [exec, execRdstatus, h, readyEffect]
  all_goals exact whenReady_ready h _

theorem exec_fatal {s : State} (h : s.Fatal) {i : Instr} (hi : i ≠ .rdstatus) :
    exec i s = .next (s.refuse .fatal) := by
  cases i
  case rdstatus => exact absurd rfl hi
  all_goals exact whenReady_fatal h _

theorem exec_rdstatus_fatal {s : State} (h : s.Fatal) :
    exec .rdstatus s = .next (s.respond (Response.okData s.status.word.toNat)) := by
  simp only [exec, execRdstatus, h]

theorem exec_constructed {s : State} (h : s.status.phase = .constructed) (i : Instr) :
    exec i s = .fault .commandInReset := by
  cases i
  case rdstatus => simp only [exec, execRdstatus, h]
  all_goals exact whenReady_constructed h _

/-- Everything exec can answer as a next state. -/
theorem exec_next {i : Instr} {s t : State} (h : exec i s = .next t) :
    (s.Ready ∧ t = readyEffect i s) ∨ (s.Fatal ∧ i ≠ .rdstatus ∧ t = s.refuse .fatal) ∨
      (s.Fatal ∧ i = .rdstatus ∧ t = s.respond (Response.okData s.status.word.toNat)) := by
  cases hp : s.status.phase with
  | constructed => rw [exec_constructed hp] at h; cases h
  | ready =>
    rw [exec_ready hp] at h
    exact .inl ⟨hp, by simpa using h.symm⟩
  | fatal =>
    by_cases hi : i = .rdstatus
    · subst hi
      rw [exec_rdstatus_fatal hp] at h
      exact .inr (.inr ⟨hp, rfl, by simpa using h.symm⟩)
    · rw [exec_fatal hp hi] at h
      exact .inr (.inl ⟨hp, hi, by simpa using h.symm⟩)

/-! ## The READY effect of each command whose effect has cases -/

theorem extractReady_cases (flen : BitVec 4) (start len : BitVec 8) (order : ByteOrder) (signed : Bool) (frame : Frame)
    (s : State) :
    (8 < flen.toNat ∧ extractReady flen start len order signed frame s = s.refuse .illegal) ∨
    (flen.toNat ≤ 8 ∧ len.toNat = 0 ∧ extractReady flen start len order signed frame s = s.fatalNow .lenZero) ∨
    (flen.toNat ≤ 8 ∧ 1 ≤ len.toNat ∧ 8 * flen.toNat < start.toNat + len.toNat ∧
      extractReady flen start len order signed frame s = s.fatalNow .range) ∨
    (flen.toNat ≤ 8 ∧ 1 ≤ len.toNat ∧ start.toNat + len.toNat ≤ 8 * flen.toNat ∧
      extractReady flen start len order signed frame s =
        s.respond (Response.okData (extractField frame start.toNat len.toNat order signed).toNat)) := by
  unfold extractReady checkField
  by_cases h1 : 8 < flen.toNat
  · exact .inl ⟨h1, if_pos h1⟩
  by_cases h2 : len.toNat < 1
  · exact .inr (.inl ⟨by omega, by omega, by simp only [if_neg h1, if_pos h2]⟩)
  by_cases h3 : 8 * flen.toNat < start.toNat + len.toNat
  · exact .inr (.inr (.inl ⟨by omega, by omega, h3, by simp only [if_neg h1, if_neg h2, if_pos h3]⟩))
  · exact .inr (.inr (.inr ⟨by omega, by omega, by omega, by simp only [if_neg h1, if_neg h2, if_neg h3]⟩))

theorem insertReady_cases (flen : BitVec 4) (start len : BitVec 8) (order : ByteOrder) (value : Raw) (frame : Frame)
    (s : State) :
    (8 < flen.toNat ∧ insertReady flen start len order value frame s = s.refuse .illegal) ∨
    (flen.toNat ≤ 8 ∧ len.toNat = 0 ∧ insertReady flen start len order value frame s = s.fatalNow .lenZero) ∨
    (flen.toNat ≤ 8 ∧ 1 ≤ len.toNat ∧ 8 * flen.toNat < start.toNat + len.toNat ∧
      insertReady flen start len order value frame s = s.fatalNow .range) ∨
    (flen.toNat ≤ 8 ∧ 1 ≤ len.toNat ∧ start.toNat + len.toNat ≤ 8 * flen.toNat ∧
      insertReady flen start len order value frame s =
        s.respond (Response.okFrame (insertField frame start.toNat len.toNat order value) flen)) := by
  unfold insertReady checkField
  by_cases h1 : 8 < flen.toNat
  · exact .inl ⟨h1, if_pos h1⟩
  by_cases h2 : len.toNat < 1
  · exact .inr (.inl ⟨by omega, by omega, by simp only [if_neg h1, if_pos h2]⟩)
  by_cases h3 : 8 * flen.toNat < start.toNat + len.toNat
  · exact .inr (.inr (.inl ⟨by omega, by omega, h3, by simp only [if_neg h1, if_neg h2, if_pos h3]⟩))
  · exact .inr (.inr (.inr ⟨by omega, by omega, by omega, by simp only [if_neg h1, if_neg h2, if_neg h3]⟩))

theorem checkEncode_none {S : Int} {len : Nat} {MIN MAX : Int} :
    checkEncode S len MIN MAX = none ↔ 1 ≤ len ∧ len ≤ 64 ∧ S ≠ 0 ∧ MIN ≤ MAX := by
  unfold checkEncode
  repeat' split
  all_goals simp_all <;> omega

/-- ENCODE in READY: one of its four causes, or its result (41_transform R99). -/
theorem encodeResult_cases (E S O : Int) (len : Nat) (signed : Bool) (MIN MAX : Int) (s : State) :
    (∃ c, (c = .lenZero ∨ c = .lenWide ∨ c = .scaleZero ∨ c = .limitOrder) ∧
      encodeResult E S O len signed MIN MAX s = s.fatalNow c) ∨
    ((1 ≤ len ∧ len ≤ 64 ∧ S ≠ 0 ∧ MIN ≤ MAX) ∧
      encodeResult E S O len signed MIN MAX s =
        s.respond (Response.okData (encodeValue s.cfg.par E S O len signed MIN MAX).toNat)) := by
  unfold encodeResult
  cases h : checkEncode S len MIN MAX with
  | none => exact .inr ⟨checkEncode_none.1 h, rfl⟩
  | some c =>
    refine .inl ⟨c, ?_, rfl⟩
    unfold checkEncode at h
    repeat' split at h
    all_goals simp_all

theorem parseReady_cases (flen : BitVec 4) (frame : Frame) (s : State) :
    (flen.toNat < s.cfg.dlen.toNat ∧
      parseReady flen frame s = { s.refuse .short with status := s.status.setLogShort }) ∨
    (s.cfg.dlen.toNat ≤ flen.toNat ∧
      parseReady flen frame s = { s.respond (Response.bare .ok) with
        cd := s.cd.writeAll (parseWrites s.cfg frame), cdPulses := parseWrites s.cfg frame }) := by
  unfold parseReady
  split
  · next h => exact .inl ⟨h, rfl⟩
  · next h => exact .inr ⟨by omega, rfl⟩

theorem stageReady_cases (idx : BitVec 8) (eng : Eng) (s : State) :
    (s.cfg.writable idx.toNat = true ∧
      stageReady idx eng s = State.respond { s with cmd := s.cmd.write idx.toNat (sint s.cfg.par.wEng eng) } (Response.bare .ok)) ∨
    (s.cfg.writable idx.toNat = false ∧ stageReady idx eng s = s.refuse .badIdx) := by
  unfold stageReady
  cases h : s.cfg.writable idx.toNat
  · exact .inr ⟨rfl, by simp⟩
  · exact .inl ⟨rfl, by simp⟩

end Sys2Proof.Machine
end

