-- ==== Sys2Proof/Laws/Update.lean ====
section
/-! SUPPORT. UPDATE's walk, bit by bit (spec/42_codec.md R120, R127, R128): a bit that no writable descriptor covers
stays, any other is written last by the covering descriptor of the highest index. -/

namespace Sys2Proof.Machine

/-- The walk over some rows of a table, in index order from `n` on. -/
def walk (c : Params) (x : Nat → Eng) (l : List Desc) (n : Nat) (G : Frame) : Frame :=
  ((l.zipIdx n).filter (·.1.wr)).foldl (fun G p => insertSignal c G p.1 (x p.2)) G

theorem updateFrame_eq_walk (c : CodecConfig) (x : Nat → Eng) (G : Frame) :
    updateFrame c x G = walk c.par x c.descs 0 G := rfl

@[simp] theorem walk_nil (c : Params) (x : Nat → Eng) (n : Nat) (G : Frame) : walk c x [] n G = G := rfl

theorem walk_cons (c : Params) (x : Nat → Eng) (d : Desc) (l : List Desc) (n : Nat) (G : Frame) :
    walk c x (d :: l) n G = walk c x l (n + 1) (if d.wr then insertSignal c G d (x n) else G) := by
  cases h : d.wr <;> simp [walk, List.zipIdx_cons, h]

theorem frameBit_insertSignal_other (c : Params) (G : Frame) (d : Desc) (e : Eng) {p : Nat × Nat} (hp : p.2 < 8)
    (h : p ∉ d.bits) : frameBit (insertSignal c G d e) p = frameBit G p :=
  frameBit_insertField_other G _ _ _ _ hp h

theorem frameBit_insertSignal_field (c : Params) (G : Frame) {d : Desc} (e : Eng) {i : Nat} (hi : i < d.len)
    (h : d.start + d.len ≤ 64) :
    frameBit (insertSignal c G d e) (fieldBit d.order d.start d.len i) = (encodeSignal c d e).getLsbD i :=
  frameBit_insertField_field G _ _ hi h

/-- Bits no writable row covers are not touched (42_codec R128 a, b). -/
theorem frameBit_walk_other (c : Params) (x : Nat → Eng) (l : List Desc) (n : Nat) (G : Frame) {p : Nat × Nat} (hp : p.2 < 8)
    (h : ∀ d ∈ l, d.wr = true → p ∉ d.bits) : frameBit (walk c x l n G) p = frameBit G p := by
  induction l generalizing n G with
  | nil => rfl
  | cons d l ih =>
    rw [walk_cons, ih _ _ fun e he => h e (List.mem_cons_of_mem _ he)]
    cases hw : d.wr
    · simp
    · simpa using frameBit_insertSignal_other c G d (x n) hp (h d List.mem_cons_self hw)

/-- The row of the highest index that covers a bit decides it (42_codec R120). -/
theorem frameBit_walk_last (c : Params) (x : Nat → Eng) (l : List Desc) (n : Nat) (G : Frame) {k : Nat} {d : Desc} {i : Nat}
    (hd : l[k]? = some d) (hw : d.wr = true) (hi : i < d.len) (hb : d.start + d.len ≤ 64)
    (hlast : ∀ k' e, k < k' → l[k']? = some e → e.wr = true → fieldBit d.order d.start d.len i ∉ e.bits) :
    frameBit (walk c x l n G) (fieldBit d.order d.start d.len i) = (encodeSignal c d (x (n + k))).getLsbD i := by
  induction l generalizing n G k with
  | nil => simp at hd
  | cons a l ih =>
    rw [walk_cons]
    cases k with
    | zero =>
      simp only [List.getElem?_cons_zero, Option.some.injEq] at hd
      subst hd
      rw [frameBit_walk_other c x l _ _ (fieldBit_snd_lt ..), if_pos hw, frameBit_insertSignal_field c G _ hi hb,
        Nat.add_zero]
      intro e he hew
      obtain ⟨j, hj⟩ := List.mem_iff_getElem?.1 he
      exact hlast (j + 1) e (Nat.succ_pos j) (by simpa using hj) hew
    | succ k =>
      rw [ih (n + 1) _ (by simpa using hd) fun k' e hk he => hlast (k' + 1) e (by omega) (by simpa using he)]
      congr 3
      omega

/-- The walk looks at the values of the writable rows alone. -/
theorem walk_ext (c : Params) (l : List Desc) (n : Nat) (G : Frame) (x y : Nat → Eng)
    (hx : ∀ k d, l[k]? = some d → d.wr = true → x (n + k) = y (n + k)) : walk c x l n G = walk c y l n G := by
  induction l generalizing n G with
  | nil => rw [walk_nil, walk_nil]
  | cons d l ih =>
    rw [walk_cons, walk_cons, ih (n + 1)]
    · cases hw : d.wr
      · simp only [Bool.false_eq_true, if_false]
      · have := hx 0 d rfl hw
        simp only [Nat.add_zero] at this
        rw [this]
    · intro k e he hew
      have := hx (k + 1) e (by simpa using he) hew
      rwa [show n + (k + 1) = n + 1 + k by omega] at this

@[simp] theorem updateReady_cfg (s : State) : (updateReady s).cfg = s.cfg := rfl
@[simp] theorem updateReady_cs (s : State) : (updateReady s).cs = updateFrame s.cfg s.readCmd s.cs := rfl
@[simp] theorem updateReady_cmd (s : State) : (updateReady s).cmd = s.cmd := rfl
@[simp] theorem updateReady_status (s : State) : (updateReady s).status = s.status := rfl
@[simp] theorem updateReady_cd (s : State) : (updateReady s).cd = s.cd := rfl
@[simp] theorem updateReady_port (s : State) : (updateReady s).port = s.port := rfl
@[simp] theorem updateReady_draws (s : State) : (updateReady s).draws = s.draws := rfl

end Sys2Proof.Machine
end

