-- ==== Sys2Proof/Laws/Step.lean ====
section
/-! SUPPORT. What a step does by the event at the head of the port, and which part of a frame a command can look at. -/

namespace Sys2Proof.Machine

/-! ## Events -/

theorem takeEvent_command {c : Command} {rest : List Input} {s : State} (h : s.status.phase ≠ .constructed) :
    takeEvent (.command c) rest s = runCommand c { s with port := rest } := by
  unfold takeEvent
  cases hp : s.status.phase <;> first | rfl | exact absurd hp h

theorem takeEvent_rst {rest : List Input} {s : State} :
    takeEvent .rst rest s = .next (State.resetSequence { s with port := rest }) := rfl

theorem takeEvent_cut {c : Command} {rest : List Input} {s : State} (h : s.status.phase ≠ .constructed) :
    takeEvent (.rstDuring c) rest s = .next (State.cutByReset { s with port := rest } c) := by
  unfold takeEvent
  cases hp : s.status.phase <;> first | rfl | exact absurd hp h

theorem step_idle {s : State} (hp : s.port = []) : step s = .next (idle s) := by
  rw [step, hp]

theorem step_command {s : State} {c : Command} {rest : List Input} (hp : s.port = .command c :: rest)
    (h : s.status.phase ≠ .constructed) : step s = runCommand c { s with port := rest } := by
  rw [step, hp]; exact takeEvent_command h

theorem step_rst {s : State} {rest : List Input} (hp : s.port = .rst :: rest) :
    step s = .next (State.resetSequence { s with port := rest }) := by
  rw [step, hp]; rfl

theorem step_cut {s : State} {c : Command} {rest : List Input} (hp : s.port = .rstDuring c :: rest)
    (h : s.status.phase ≠ .constructed) : step s = .next (State.cutByReset { s with port := rest } c) := by
  rw [step, hp]; exact takeEvent_cut h

theorem execIllegal_ready {s : State} (h : s.Ready) : execIllegal s = .next (s.refuse .illegal) := whenReady_ready h _

theorem execIllegal_fatal {s : State} (h : s.Fatal) : execIllegal s = .next (s.refuse .fatal) := whenReady_fatal h _

/-- An accepted command in a settled phase is executed or refused; either way it ends in a next state. -/
theorem runCommand_cases (c : Command) (s : State) :
    (∃ i, decode c = .ok i ∧ runCommand c s = exec i s) ∨
    (∃ e, decode c = .error e ∧ runCommand c s = execIllegal s) := by
  unfold runCommand
  cases decode c with
  | ok i => exact .inl ⟨i, rfl, rfl⟩
  | error e => exact .inr ⟨e, rfl, rfl⟩

/-! ## Decoded commands -/

theorem wf_of_decode {c : Command} {i : Instr} (h : decode c = .ok i) : i.WellFormed := by
  obtain ⟨m, -, hf, -, rfl⟩ := decode_ok.1 h
  cases m
  case extract => exact decide_eq_true (hf rfl)
  case insert => exact decide_eq_true (hf rfl)
  all_goals rfl

theorem operandsOf_rdstatus {m : Mnemonic} {c : Command} : operandsOf m c = .rdstatus ↔ m = .rdstatus := by
  cases m <;> simp [operandsOf]

theorem decode_rdstatus {c : Command} (h : c.hdr = 0xC000) : decode c = .ok .rdstatus :=
  decode_ok.2 ⟨.rdstatus, selectRow_rdstatus.2 h, fun hf => Bool.noConfusion hf, fun hp => Bool.noConfusion hp, rfl⟩

/-- In FATAL every command but RDSTATUS is refused, legal or not (60_exceptions R143). -/
theorem runCommand_fatal {s : State} (h : s.Fatal) {c : Command} (hc : c.hdr ≠ 0xC000) :
    runCommand c s = .next (s.refuse .fatal) := by
  rcases runCommand_cases c s with ⟨i, hd, hr⟩ | ⟨e, -, hr⟩
  · obtain ⟨m, hm, -, -, rfl⟩ := decode_ok.1 hd
    rw [hr, exec_fatal h]
    rw [Ne, operandsOf_rdstatus]
    rintro rfl
    exact hc (selectRow_rdstatus.1 hm)
  · rw [hr, execIllegal_fatal h]

/-! ## Which part of a frame matters -/

theorem frameBit_of_bytes {F G : Frame} {n : Nat} (h : ∀ b, b < n → frameByte F b = frameByte G b) {p : Nat × Nat}
    (h1 : p.1 < n) (h2 : p.2 < 8) : frameBit F p = frameBit G p := by
  have := congrArg (fun x => BitVec.getLsbD x p.2) (h p.1 h1)
  simpa only [getLsbD_frameByte, h2, decide_true, Bool.true_and] using this

theorem extractField_of_bytes {F G : Frame} {n start len : Nat} (h : ∀ b, b < n → frameByte F b = frameByte G b)
    (hb : start + len ≤ 8 * n) (order : ByteOrder) (signed : Bool) :
    extractField F start len order signed = extractField G start len order signed :=
  extractField_congr (fun _ hi => frameBit_of_bytes h (fieldBit_fst_lt hi hb) (fieldBit_snd_lt ..)) signed

/-- A full PARSE looks at the first DLEN bytes alone (42_codec R124). -/
theorem parseWrites_of_bytes {c : CodecConfig} (hc : c.Valid) {F G : Frame}
    (h : ∀ b, b < c.dlen.toNat → frameByte F b = frameByte G b) : parseWrites c F = parseWrites c G := by
  unfold parseWrites
  apply List.map_congr_left
  rintro ⟨d, k⟩ hd
  simp only [decodeSignal]
  rw [extractField_of_bytes h (valid_desc hc (List.fst_mem_of_mem_zipIdx hd)).2.1]

/-! ## Everything a step can do -/

theorem takeEvent_rstDuring_constructed {c : Command} {rest : List Input} {s : State}
    (h : s.status.phase = .constructed) :
    takeEvent (.rstDuring c) rest s = .next (State.resetSequence { s with port := rest }) := by
  simp only [takeEvent, h]

theorem takeEvent_command_constructed {c : Command} {rest : List Input} {s : State}
    (h : s.status.phase = .constructed) : takeEvent (.command c) rest s = .next s.quiet.construct := by
  simp only [takeEvent, h]

/-- By the event at the head of the port and by the phase, what the next state is. -/
theorem step_cases {s t : State} (h : step s = .next t) :
    (s.port = [] ∧ t = idle s) ∨
    (∃ rest, s.port = .rst :: rest ∧ t = State.resetSequence { s with port := rest }) ∨
    (∃ c rest, s.port = .rstDuring c :: rest ∧ s.status.phase = .constructed ∧
      t = State.resetSequence { s with port := rest }) ∨
    (∃ c rest, s.port = .rstDuring c :: rest ∧ s.status.phase ≠ .constructed ∧
      t = State.cutByReset { s with port := rest } c) ∨
    (∃ c rest, s.port = .command c :: rest ∧ s.status.phase = .constructed ∧ t = s.quiet.construct) ∨
    (∃ c rest, s.port = .command c :: rest ∧ s.Fatal ∧
      ((c.hdr ≠ 0xC000 ∧ t = State.refuse { s with port := rest } .fatal) ∨
        (c.hdr = 0xC000 ∧
          t = State.respond { s with port := rest } (Response.okData s.status.word.toNat)))) ∨
    (∃ c rest, s.port = .command c :: rest ∧ s.Ready ∧
      ((∃ e, decode c = .error e ∧ t = State.refuse { s with port := rest } .illegal) ∨
        ∃ i, decode c = .ok i ∧ t = readyEffect i { s with port := rest })) := by
  rcases hp : s.port with _ | ⟨e, rest⟩
  · rw [step_idle hp] at h
    exact .inl ⟨rfl, (Host.Outcome.next.inj h).symm⟩
  rw [step, hp] at h
  replace h : takeEvent e rest s = .next t := h
  refine .inr ?_
  cases e with
  | rst => exact .inl ⟨_, rfl, (Host.Outcome.next.inj h).symm⟩
  | rstDuring c =>
    refine .inr ?_
    by_cases hc : s.status.phase = .constructed
    · rw [takeEvent_rstDuring_constructed hc] at h
      exact .inl ⟨c, _, rfl, hc, (Host.Outcome.next.inj h).symm⟩
    · rw [takeEvent_cut hc] at h
      exact .inr (.inl ⟨c, _, rfl, hc, (Host.Outcome.next.inj h).symm⟩)
  | command c =>
    refine .inr (.inr (.inr ?_))
    cases hph : s.status.phase with
    | constructed =>
      rw [takeEvent_command_constructed hph] at h
      exact .inl ⟨c, _, rfl, rfl, (Host.Outcome.next.inj h).symm⟩
    | fatal =>
      rw [takeEvent_command (by rw [hph]; simp)] at h
      refine .inr (.inl ⟨c, _, rfl, hph, ?_⟩)
      by_cases hc : c.hdr = 0xC000
      · rw [runCommand, decode_rdstatus hc] at h
        simp only at h
        rw [exec_rdstatus_fatal (by exact hph)] at h
        exact .inr ⟨hc, (Host.Outcome.next.inj h).symm⟩
      · rw [runCommand_fatal (by exact hph) hc] at h
        exact .inl ⟨hc, (Host.Outcome.next.inj h).symm⟩
    | ready =>
      rw [takeEvent_command (by rw [hph]; simp)] at h
      refine .inr (.inr ⟨c, _, rfl, hph, ?_⟩)
      rcases runCommand_cases c { s with port := rest } with ⟨i, hd, hr⟩ | ⟨e, hd, hr⟩
      · rw [hr, exec_ready (by exact hph)] at h
        exact .inr ⟨i, hd, (Host.Outcome.next.inj h).symm⟩
      · rw [hr, execIllegal_ready (by exact hph)] at h
        exact .inl ⟨e, hd, (Host.Outcome.next.inj h).symm⟩

/-- What executing a command in READY can do to each register (10_state R32). -/
theorem readyEffect_cases (i : Instr) (s : State) :
    (readyEffect i s).cfg = s.cfg ∧ (readyEffect i s).port = s.port ∧ (readyEffect i s).draws = s.draws ∧
    (((readyEffect i s).status = s.status ∧ ∃ r, (readyEffect i s).rsp = some r ∧ r.status ≠ .fatalNow) ∨
      (∃ flen frame, i = .parse flen frame ∧ flen.toNat < s.cfg.dlen.toNat ∧
        (readyEffect i s).status = s.status.setLogShort) ∨
      (∃ c, c ≠ .noFatal ∧ (i.mnemonic = .extract ∨ i.mnemonic = .insert ∨ i.mnemonic = .encode) ∧
        readyEffect i s = s.fatalNow c)) ∧
    ((readyEffect i s).cs = s.cs ∨ (i = .update ∧ (readyEffect i s).cs = updateFrame s.cfg s.readCmd s.cs) ∨
      (i = .reset ∧ (readyEffect i s).cs = s.cfg.defBytes)) ∧
    ((readyEffect i s).cmd = s.cmd ∨
      (∃ idx eng, i = .stage idx eng ∧ s.cfg.writable idx.toNat = true ∧
        (readyEffect i s).cmd = s.cmd.write idx.toNat (sint s.cfg.par.wEng eng)) ∨
      (i = .reset ∧ (readyEffect i s).cmd = cmdFile s.cfg fun d _ => d.defCmd)) ∧
    ((readyEffect i s).cd = s.cd ∨
      ∃ flen frame, i = .parse flen frame ∧ (readyEffect i s).cd = s.cd.writeAll (parseWrites s.cfg frame)) := by
  cases i with
  | extract flen start len order signed frame =>
    simp only [readyEffect]
    rcases extractReady_cases flen start len order signed frame s with ⟨-, h⟩ | ⟨-, -, h⟩ | ⟨-, -, -, h⟩ | ⟨-, -, -, h⟩ <;>
      rw [h]
    · simp
    · exact ⟨rfl, rfl, rfl, .inr (.inr ⟨_, by simp, by simp [Instr.mnemonic], rfl⟩), .inl rfl, .inl rfl, .inl rfl⟩
    · exact ⟨rfl, rfl, rfl, .inr (.inr ⟨_, by simp, by simp [Instr.mnemonic], rfl⟩), .inl rfl, .inl rfl, .inl rfl⟩
    · simp
  | insert flen start len order value frame =>
    simp only [readyEffect]
    rcases insertReady_cases flen start len order value frame s with ⟨-, h⟩ | ⟨-, -, h⟩ | ⟨-, -, -, h⟩ | ⟨-, -, -, h⟩ <;>
      rw [h]
    · simp
    · exact ⟨rfl, rfl, rfl, .inr (.inr ⟨_, by simp, by simp [Instr.mnemonic], rfl⟩), .inl rfl, .inl rfl, .inl rfl⟩
    · exact ⟨rfl, rfl, rfl, .inr (.inr ⟨_, by simp, by simp [Instr.mnemonic], rfl⟩), .inl rfl, .inl rfl, .inl rfl⟩
    · simp
  | encode eng scale offset len signed min max =>
    simp only [readyEffect, encodeReady]
    rcases encodeResult_cases (sint s.cfg.par.wEng eng) (sint s.cfg.par.wCoef scale) (sint s.cfg.par.wCoef offset)
      len.toNat signed (sint s.cfg.par.wEng min) (sint s.cfg.par.wEng max) s with ⟨c, hc, h⟩ | ⟨-, h⟩ <;> rw [h]
    · have : c ≠ .noFatal := by rcases hc with rfl | rfl | rfl | rfl <;> simp
      exact ⟨rfl, rfl, rfl, .inr (.inr ⟨c, this, .inr (.inr rfl), rfl⟩), .inl rfl, .inl rfl, .inl rfl⟩
    · simp
  | parse flen frame =>
    simp only [readyEffect]
    rcases parseReady_cases flen frame s with ⟨hl, h⟩ | ⟨-, h⟩ <;> rw [h]
    · exact ⟨rfl, rfl, rfl, .inr (.inl ⟨flen, frame, rfl, hl, rfl⟩), .inl rfl, .inl rfl, .inl rfl⟩
    · exact ⟨rfl, rfl, rfl, .inl ⟨rfl, _, rfl, by simp⟩, .inl rfl, .inl rfl, .inr ⟨flen, frame, rfl, rfl⟩⟩
  | stage idx eng =>
    simp only [readyEffect]
    rcases stageReady_cases idx eng s with ⟨hw, h⟩ | ⟨-, h⟩ <;> rw [h]
    · exact ⟨rfl, rfl, rfl, .inl ⟨rfl, _, rfl, by simp⟩, .inl rfl, .inr (.inl ⟨idx, eng, rfl, hw, rfl⟩), .inl rfl⟩
    · simp
  | update =>
    exact ⟨rfl, rfl, rfl, .inl ⟨rfl, _, rfl, by simp⟩, .inr (.inl ⟨rfl, updateReady_cs s⟩), .inl rfl, .inl rfl⟩
  | reset =>
    exact ⟨rfl, rfl, rfl, .inl ⟨rfl, _, rfl, by simp⟩, .inr (.inr ⟨rfl, rfl⟩), .inr (.inr ⟨rfl, rfl⟩), .inl rfl⟩
  | decode raw signed scale offset => simp [readyEffect, decodeReady]
  | getid => simp [readyEffect]
  | getperiod => simp [readyEffect]
  | rdstate => simp [readyEffect]
  | rdstatus => simp [readyEffect]

/-- Two records with one header that agree under a mask agree in every bit of it. -/
theorem getLsbD_of_masked {w w' m : CtlWord} (h : w &&& m = w' &&& m) {q : Nat} (hq : m.getLsbD q = true) :
    w.getLsbD q = w'.getLsbD q := by
  have := congrArg (fun x => BitVec.getLsbD x q) h
  simpa [hq] using this

end Sys2Proof.Machine
end

