-- ==== Sys2Proof/Tests/Slice0.lean ====
section
/-! SUPPORT. Tests of single decodings and single steps, each with its expected result taken from a rule or a table of
spec/, and the witnesses that the hypotheses of the statements can be met. -/

namespace Sys2Proof.Tests

open Sys2Proof.Machine

/-! ## Helpers -/

/-- A frame written byte 0 first, as spec/95_test_vectors.md writes it. -/
def fr (b0 b1 b2 b3 b4 b5 b6 b7 : Byte) : Frame := b7 ++ b6 ++ b5 ++ b4 ++ b3 ++ b2 ++ b1 ++ b0

/-- One reading of the next state, if there is one. -/
def after {α : Type} (r : Result) (f : State → α) : Option α :=
  match r with
  | .next t    => some (f t)
  | .fault _   => none
  | .refused _ => none

def rspData (t : State) : Option (RspStatus × Eng) := t.rsp.map fun r => (r.status, r.data)
def rspFrame (t : State) : Option (RspStatus × Frame × BitVec 4) := t.rsp.map fun r => (r.status, r.frame, r.flen)

/-- The state after `rst` with the given configuration. -/
def built (c : CodecConfig) : State := State.resetSequence { State.reset with cfg := c }

/-- Configuration X2 (95_test_vectors section 3). -/
def x2 : CodecConfig where
  par      := Config.params
  id       := 0x18FF50E5
  period   := 0
  dlen     := 4
  descs    :=
    [ ⟨0x000C1000, 65536, 0, 0, 4294901760, 305397760⟩,
      ⟨0x00040404, 65536, 0, 0, 983040, 327680⟩,
      ⟨0x00070C10, -32768, 6553600, -32768000, 32768000, 6553600⟩,
      ⟨0x0001041C, 65536, 0, 0, 983040, 0⟩ ]
  defBytes := fr 0xFF 0x00 0x80 0x00 0xEE 0xEE 0xEE 0xEE

/-- X1 in phase FATAL after the RANGE row of 95_test_vectors section 2.7. -/
def fatalX1 : State := State.reset.fatalNow .range

/-- X1 with the four staged values of 95_test_vectors program P1, steps 5 to 8. -/
def stagedX1 : State := { State.reset with cmd := [(0, 6553600), (1, 819200), (2, 65536), (4, 589824)] }

/-- The state with one event on its port. -/
def State.onPort (s : State) (e : Input) : State := { s with port := [e] }

/-- X1 built with other values of the open parameters. -/
def withPar (p : Params) : State := { State.reset with cfg := { Config.x1 with par := p } }

def angle : Desc := ⟨0x00071000, 8192, 0, -32768000, 32768000, 0⟩
def speed : Desc := ⟨0x00040C10, 4096, 0, 0, 16773120, 0⟩

/-! ## WellFormed refuses each ill-formed term, and the decoder refuses its record by name (30_encoding R69 step 4) -/

theorem test_illformed_extract : (Instr.extract 9 0 8 .intel false 0).wellFormed = false := by decide
theorem test_illformed_insert : (Instr.insert 15 0 8 .motorola 0 0).wellFormed = false := by decide
theorem test_wellformed_extract : (Instr.extract 8 0 8 .intel false 0).wellFormed = true := by decide
theorem test_decode_flen9_extract : decode { Command.bare 0x1900 with desc := 0x00000800 } = .error .frameSize := by decide
theorem test_decode_flen9_insert : decode { Command.bare 0x2900 with desc := 0x00000800 } = .error .frameSize := by decide

/-! ## Decoding: words written out from the tables of 30_encoding R59, R60, R63 (95_test_vectors section 2.1) -/

theorem test_decode_extract :
    decode { Command.bare 0x1200 with desc := 0x00031014, frame := 0x1234 } =
      .ok (.extract 2 20 16 .motorola true 0x1234) := by decide
theorem test_decode_insert :
    decode { Command.bare 0x2800 with desc := 0x00011014, val := -988, frame := 0xAB } =
      .ok (.insert 8 20 16 .motorola 0xFFFFFFFFFFFFFC24 0xAB) := by decide
theorem test_decode_decode :
    decode { Command.bare 0x3000 with desc := 0x00020000, val := 7, scale := -32768, offset := -2621440 } =
      .ok (.decode 7 true (-32768) (-2621440)) := by decide
theorem test_decode_encode :
    decode ⟨0x4000, 0x000108C8, 0, 196608, 65536, 1, 2, 3⟩ = .ok (.encode 196608 65536 1 8 false 2 3) := by decide
theorem test_decode_parse : decode { Command.bare 0x5F00 with frame := 0xFF } = .ok (.parse 15 0xFF) := by decide
theorem test_decode_update : decode (Command.bare 0x6000) = .ok .update := by decide
theorem test_decode_reset : decode (Command.bare 0x7000) = .ok .reset := by decide
theorem test_decode_getid : decode (Command.bare 0x8000) = .ok .getid := by decide
theorem test_decode_getperiod : decode (Command.bare 0x9000) = .ok .getperiod := by decide
theorem test_decode_stage : decode { Command.bare 0xA0FF with val := 5 } = .ok (.stage 255 5) := by decide
theorem test_decode_rdstate : decode (Command.bare 0xB000) = .ok .rdstate := by decide
theorem test_decode_rdstatus : decode (Command.bare 0xC000) = .ok .rdstatus := by decide

/-- The refusals of 95_test_vectors section 2.1 that no row matches. -/
theorem test_decode_reserved_headers :
    ([0x0000, 0xD000, 0xE000, 0xF000, 0xF123, 0x1801, 0x3100, 0x3001, 0x4800, 0x5801, 0x6100, 0x7001, 0x8010, 0x9F00,
      0xB001, 0xA100, 0xC100, 0xC0FF].all fun h => selectRow h == none) = true := by decide

/-- The refusals of 95_test_vectors section 2.1 on the reserved bits of a pure command's control word. -/
theorem test_decode_reserved_desc :
    ([(0x1800, 0x00040800), (0x1800, 0x00080800), (0x1800, 0x00100800), (0x3000, 0x80000000),
      (0x4000, 0x00040800)].all fun p =>
        decide (decode { Command.bare p.1 with desc := p.2 } = .error .reservedDesc)) = true := by decide

/-- No two rows of the opcode map match one header (30_encoding R60). -/
theorem test_opcode_rows_disjoint :
    List.Pairwise (fun a b => a.mask &&& b.pattern ≠ b.mask &&& a.pattern) opcodeTable := by decide

/-- The one-word layout agrees with the record it lays out. -/
theorem test_word_layout :
    Command.ofWord (Command.toWord ⟨0x4000, 0x00021000, 1, 2, 3, 4, 5, 6⟩) = ⟨0x4000, 0x00021000, 1, 2, 3, 4, 5, 6⟩ := by
  decide

/-- Every row of spec/opcode_table.json: its match word decodes, and the first step from reset runs it. -/
theorem test_every_row_runs_from_reset :
    ([0x1000, 0x2000, 0x3000, 0x4000, 0x5000, 0x6000, 0x7000, 0x8000, 0x9000, 0xA000, 0xB000, 0xC000].all fun w =>
      (decodeTableWord 16 w).isSome &&
        (after (step (State.reset.withFetchWord 16 w)) fun t => t.rsp.isSome) == some true) = true := by decide

/-! ## EXTRACT and INSERT (95_test_vectors sections 1, 2.2, 2.3) -/

/-- E1, the source's own example. -/
theorem test_extract_source_example :
    after (exec (.extract 2 0 16 .motorola false (fr 0x12 0x34 0 0 0 0 0 0)) State.reset) rspData =
      some (some (.ok, 0x1234)) := by decide
theorem test_extract_signed_crossing :
    after (exec (.extract 8 12 12 .intel true (fr 0xAB 0xCD 0xEF 0x01 0x23 0x45 0x67 0x89)) State.reset) rspData =
      some (some (.ok, 0xFFFFFFFFFFFFFEFC)) := by decide
theorem test_insert_into_ones :
    after (exec (.insert 8 9 3 .motorola 0b010 0xFFFFFFFFFFFFFFFF) State.reset) rspFrame =
      some (some (.ok, fr 0xFF 0xAF 0xFF 0xFF 0xFF 0xFF 0xFF 0xFF, 8)) := by decide
/-- Lanes beyond FLEN are copied through (40_bitfield R89 e). -/
theorem test_insert_short_frame :
    after (exec (.insert 2 4 8 .motorola 0xBC (fr 0 0 0x11 0x22 0x33 0x44 0x55 0x66)) State.reset) rspFrame =
      some (some (.ok, fr 0x0B 0xC0 0x11 0x22 0x33 0x44 0x55 0x66, 2)) := by decide

/-! ## DECODE and ENCODE (95_test_vectors sections 2.4, 2.6) -/

/-- The most negative result, which needs 97 bits. -/
theorem test_decode_most_negative :
    after (exec (.decode 0xFFFFFFFFFFFFFFFF false 0x80000000 0x80000000) State.reset) rspData =
      some (some (.ok, -39614081257132168796771975168)) := by decide
theorem test_decode_signed :
    after (exec (.decode 0x8000000000000000 true 32768 16384) State.reset) rspData =
      some (some (.ok, -302231454903657293660160)) := by decide
/-- N10: the most negative code is never produced. -/
theorem test_encode_saturates_symmetric :
    after (exec (.encode (-268435456) 8192 0 16 true (-2 ^ 127) (2 ^ 127 - 1)) State.reset) rspData = some (some (.ok, 0xFFFFFFFFFFFF8001)) := by decide
/-- N37: a tie with a negative divisor. -/
theorem test_encode_tie_negative_scale :
    after (exec (.encode 16384 (-32768) 0 8 true (-2 ^ 127) (2 ^ 127 - 1)) State.reset) rspData = some (some (.ok, 0xFFFFFFFFFFFFFFFF)) := by decide

/-- The other value of SIGNED_CLAMP (92_eei_decisions D4), by the quotient of N10: the most negative code. -/
theorem test_encode_twos_complement_clamp :
    after (exec (.encode (-268435456) 8192 0 16 true (-2 ^ 127) (2 ^ 127 - 1))
      (withPar { Config.params with signedClamp := .twosComplement })) rspData =
      some (some (.ok, 0xFFFFFFFFFFFF8000)) := by decide
/-- A tie, 2.5, under each rule that has a name (41_transform R97, 92_eei_decisions D3). -/
theorem test_encode_rounding_rules :
    ([(RoundRule.halfAway, 3), (.halfEven, 2), (.towardZero, 2)].all fun p =>
      after (exec (.encode 5 2 0 8 false 0 100) (withPar { Config.params with round := p.1 })) rspData ==
        some (some (.ok, p.2))) = true := by decide
/-- An instance with W_COEF = 16 has the low 16 bits of the port (00_scope R6, R9). -/
theorem test_decode_narrow_coef :
    after (exec (.decode 1 false 0x8000 0) (withPar { Config.params with wCoef := 16 })) rspData =
      some (some (.ok, -32768)) := by decide

/-! ## The fatal outcome on operands (95_test_vectors section 2.7) -/

theorem test_extract_range_fatal :
    after (exec (.extract 8 255 255 .motorola true 0) State.reset) (·.status.word) = some 0xFF22 := by decide
theorem test_insert_lenzero_fatal :
    after (exec (.insert 8 5 0 .motorola 0 0) State.reset) (·.status.word) = some 0xFF12 := by decide
theorem test_encode_lenwide_fatal :
    after (exec (.encode 0 0 0 65 false 5 1) State.reset) (·.status.word) = some 0xFF82 := by decide
/-- LOG_SHORT survives a fatal outcome. -/
theorem test_fatal_keeps_log_short :
    after (exec (.encode 0 0 0 8 false 5 1)
      { State.reset with status := State.reset.status.setLogShort }) (·.status.word) = some 0xFF46 := by decide

/-! ## The Message Codec (95_test_vectors section 4) -/

/-- P2 step 2. -/
theorem test_parse_full :
    after (exec (.parse 8 (fr 0xF0 0x60 0x8C 0x10 0x41 0xAA 0x55 0x07)) State.reset) (·.cd) =
      some [(0, -32768000), (1, 573440), (2, 65536), (3, 1638400), (4, 458752)] := by decide
/-- P2 step 3. -/
theorem test_parse_short :
    after (exec (.parse 7 0xFFFFFFFFFFFFFFFF) State.reset) (fun t => (t.cd, t.status.word)) = some ([], 0x0005) := by
  decide
/-- P1 step 10. -/
theorem test_update_staged :
    after (exec .update stagedX1) rspFrame =
      some (some (.ok, fr 0x03 0x20 0xC8 0x10 0x28 0x00 0x00 0x09, 8)) := by decide
/-- P6 step 4: declared overlap, negative scale, four declared bytes. -/
theorem test_update_x2 :
    after (exec .update (built x2)) rspFrame =
      some (some (.ok, fr 0x54 0x12 0x00 0x00 0xEE 0xEE 0xEE 0xEE, 4)) := by decide
/-- P1 step 13. -/
theorem test_reset_discards_staging :
    after (exec .reset { stagedX1 with cs := 0xFF }) (fun t => (t.cs, t.cmd)) =
      some (fr 0 0 0 0 0x28 0 0 0, [(0, 0), (1, 0), (2, 0), (4, 0)]) := by decide
theorem test_getid : after (exec .getid State.reset) rspData = some (some (.ok, 0x112)) := by decide
theorem test_getperiod : after (exec .getperiod State.reset) rspData = some (some (.ok, 20)) := by decide
theorem test_stage_stores :
    after (exec (.stage 4 589824) State.reset) (·.cmd) = some [(0, 0), (1, 0), (2, 0), (4, 589824)] := by decide
/-- STAGE to X1 k = 3, which is not writable. -/
theorem test_stage_not_writable :
    after (exec (.stage 3 1) State.reset) (fun t => (rspData t, t.cmd)) =
      some (some (.badIdx, 0), State.reset.cmd) := by decide
theorem test_rdstate :
    after (exec .rdstate (built x2)) rspFrame = some (some (.ok, fr 0xFF 0 0x80 0 0xEE 0xEE 0xEE 0xEE, 4)) := by decide
theorem test_rdstatus_in_fatal : after (exec .rdstatus fatalX1) rspData = some (some (.ok, 0xFF22)) := by decide
theorem test_rdstatus_in_ready : after (exec .rdstatus State.reset) rspData = some (some (.ok, 0x0001)) := by decide

/-! ## FATAL, reset and construction (95_test_vectors program P4, section 2.8) -/

/-- P4 step 9: FATAL is tested before legality. -/
theorem test_fatal_before_legality :
    after (step (State.onPort fatalX1 (.command (Command.bare 0x0000)))) rspData = some (some (.fatal, 0)) := by decide
/-- P4 step 7: the RESET command does not leave FATAL. -/
theorem test_reset_command_in_fatal :
    after (exec .reset fatalX1) (fun t => (rspData t, t.status.word)) = some (some (.fatal, 0), 0xFF22) := by decide
/-- P4 step 13. -/
theorem test_rst_leaves_fatal :
    after (step (State.onPort fatalX1 .rst)) (fun t => (t.status.word, t.cs)) =
      some (0x0001, fr 0 0 0 0 0x28 0 0 0) := by decide
theorem test_x2_valid : (built x2).status.word = 0x0001 := by decide

/-- Rows of 95_test_vectors section 2.8 that fail on the geometry or a descriptor's own fields. -/
theorem test_construction_geometry :
    (built { Config.x1 with dlen := 0 }).status.word = 0xFF72 ∧ (built { Config.x1 with dlen := 9 }).status.word = 0xFF72 ∧
      (built { Config.x1 with dlen := 7 }).status.word = 0x0422 := by decide
theorem test_construction_rows :
    (built { Config.x1 with descs := Config.x1.descs.set 2 ⟨0x0014011C, 65536, 0, 0, 65536, 0⟩ }).status.word = 0x0262 ∧
      (built { Config.x1 with descs := Config.x1.descs.set 1 ⟨0x000400FA, 4096, 0, 0, 1, 0⟩ }).status.word = 0x0112 ∧
      (built { Config.x1 with descs := Config.x1.descs.set 3 ⟨0x00000820, 0, 0, 0, 1, 0⟩ }).status.word = 0x0342 ∧
      (built { Config.x1 with descs := Config.x1.descs.set 0 ⟨0x00071000, 8192, 0, 1, 0, 0⟩ }).status.word = 0x0052 := by
  decide
/-- The OVERLAP row at k = 2 and the same with either member declaring it. -/
theorem test_construction_overlap :
    (built { Config.x1 with descs := Config.x1.descs.set 2 ⟨0x0004010F, 65536, 0, 0, 65536, 0⟩ }).status.word = 0x0232 ∧
      (built { Config.x1 with descs := Config.x1.descs.set 2 ⟨0x000C010F, 65536, 0, 0, 65536, 0⟩ }).status.word = 0x0001 := by
  decide

/-! ## Witnesses: for each statement with hypotheses, states and operands that meet them all, at the ends of each
clause's range -/

theorem test_witness_DecodeOfEncodeIsTheCommand :
    (Instr.extract 0 0 0 .intel false 0).WellFormed ∧ (Instr.insert 8 255 255 .motorola 1 1).WellFormed := by decide

/-- Each of the twelve commands is decoded from some record. -/
theorem test_witness_DecodedCommandKeepsEveryExaminedBit :
    ([0x1800, 0x2000, 0x3000, 0x4000, 0x5F00, 0x6000, 0x7000, 0x8000, 0x9000, 0xA0FF, 0xB000, 0xC000].all fun h =>
      (decode (Command.bare h)).toOption.isSome) = true := by decide

/-- EXTRACT: a lane at FLEN differs, bytes below it agree. -/
theorem test_witness_UnexaminedBitsHaveNoEffect_extract :
    (State.reset.Ready → State.reset.cfg.Valid) ∧ selectRow 0x1200 = some .extract ∧
      examinedEqual .extract State.reset.cfg
        { Command.bare 0x1200 with desc := 0x00001000, frame := fr 0x34 0x12 0xFF 0 0 0 0 0 }
        { Command.bare 0x1200 with desc := 0x00001000, frame := fr 0x34 0x12 0x00 0 0 0 0 0, val := 1 } := by
  simp only [examinedEqual]
  decide
/-- ENCODE: START and ORDER differ (95_test_vectors N40). -/
theorem test_witness_UnexaminedBitsHaveNoEffect_encode :
    selectRow 0x4000 = some .encode ∧
      examinedEqual .encode State.reset.cfg { Command.bare 0x4000 with desc := 0x000108C8 }
        { Command.bare 0x4000 with desc := 0x00000800 } := by
  simp only [examinedEqual]
  decide
/-- INSERT: SIGNED and the upper half of `cmd_val` differ; DECODE: START and LEN differ. -/
theorem test_witness_UnexaminedBitsHaveNoEffect_insert_decode :
    (selectRow 0x2800 = some .insert ∧
      examinedEqual .insert State.reset.cfg { Command.bare 0x2800 with desc := 0x00020800, val := 0x10000000000000000 }
        { Command.bare 0x2800 with desc := 0x00000800 }) ∧
    (selectRow 0x3000 = some .decode ∧
      examinedEqual .decode State.reset.cfg { Command.bare 0x3000 with desc := 0x0002FFFF }
        { Command.bare 0x3000 with desc := 0x00020000 }) := by
  simp only [examinedEqual]
  decide
/-- PARSE of a short frame and of a full one, STAGE, and a command that examines the header alone. -/
theorem test_witness_UnexaminedBitsHaveNoEffect_codec :
    examinedEqual .parse State.reset.cfg { Command.bare 0x5700 with frame := 1 } (Command.bare 0x5700) ∧
    examinedEqual .parse (built x2).cfg { Command.bare 0x5400 with frame := 0x100000000 } (Command.bare 0x5400) ∧
    examinedEqual .stage State.reset.cfg { Command.bare 0xA000 with frame := 1 } (Command.bare 0xA000) ∧
    examinedEqual .update State.reset.cfg { Command.bare 0x6000 with frame := 1 } (Command.bare 0x6000) :=
  ⟨fun h => absurd h (by decide), fun _ => by decide, rfl, trivial⟩

/-- An accepted command that decodes, in READY and in FATAL. -/
theorem test_witness_StepRunsTheDecodedCommand :
    ((State.reset.withFetchWord 16 0x6000).port = [.command (Command.bare 0x6000)] ∧
      (State.reset.withFetchWord 16 0x6000).status.phase ≠ .constructed ∧ decode (Command.bare 0x6000) = .ok .update) ∧
    ((State.onPort fatalX1 (.command (Command.bare 0x6000))).port = [.command (Command.bare 0x6000)] ∧
      (State.onPort fatalX1 (.command (Command.bare 0x6000))).status.phase ≠ .constructed) := by decide

/-- Every way out of the decode procedure: RDSTATUS, FATAL, no row, FLEN 9, a reserved bit, execution. -/
theorem test_witness_DecodeProcedureInOrder :
    (Command.bare 0xC000).hdr = 0xC000 ∧ fatalX1.status.phase = .fatal ∧ State.reset.status.phase = .ready ∧
      selectRow 0x0000 = none ∧
      (selectRow 0x1900 = some .extract ∧ 8 < ((0x1900 : Header).extractLsb' 8 4).toNat) ∧
      (selectRow 0x1800 = some .extract ∧ ¬ 8 < ((0x1800 : Header).extractLsb' 8 4).toNat ∧
        (0x00040800 : CtlWord).extractLsb' 18 14 ≠ 0) ∧
      decode (Command.bare 0x6000) = .ok .update := by decide
theorem test_witness_DecodeProcedureInOrder_next : ∃ t, exec .update State.reset = .next t := ⟨_, rfl⟩

theorem test_witness_ReservedEncodingsAreRefused :
    (0x0000 : Header).extractLsb' 12 4 = 0x0 ∧ (0xFFFF : Header).extractLsb' 12 4 = 0xF ∧
      ((0x1801 : Header).extractLsb' 12 4 = 0x1 ∧ (0x1801 : Header).extractLsb' 0 8 ≠ 0) ∧
      ((0xC100 : Header).extractLsb' 12 4 = 0xC ∧ (0xC100 : Header).extractLsb' 0 12 ≠ 0) ∧
      ((0xA100 : Header).extractLsb' 12 4 = 0xA ∧ (0xA100 : Header).extractLsb' 8 4 ≠ 0) ∧
      (State.reset.Ready ∧ decode (Command.bare 0xD000) = .error .noRow) := by decide

/-- The last bit of the frame, the whole frame, and the last byte. -/
theorem test_witness_FieldBitsAreDistinctAndInside :
    (63 + 1 ≤ 8 * 8 ∧ (7, 7) ∈ bitSet .intel 63 1 ∧ (7, 0) ∈ bitSet .motorola 63 1) ∧ angle.overlaps angle = true := by
  decide
theorem test_witness_FieldClosedForms :
    ((8 ≤ 8 ∧ 1 ≤ 1 ∧ 63 + 1 ≤ 8 * 8) ∧ (8 ≤ 8 ∧ 1 ≤ 64 ∧ 0 + 64 ≤ 8 * 8) ∧ (1 ≤ 8 ∧ 1 ≤ 8 ∧ 0 + 8 ≤ 8 * 1) : Prop) := by
  decide
theorem test_witness_WorkedByteOrderExample :
    State.reset.Ready ∧ frameByte (fr 0x34 0x12 0 0 0 0 0 0) 0 = 0x34 ∧ frameByte (fr 0x34 0x12 0 0 0 0 0 0) 1 = 0x12 ∧
      frameByte (fr 0x12 0x34 0 0 0 0 0 0) 0 = 0x12 ∧ frameByte (fr 0x12 0x34 0 0 0 0 0 0) 1 = 0x34 := by decide
theorem test_witness_ByteOrdersMirrorEachOther : (0 + 8 ≤ 8 ∧ 7 < 8 ∧ 7 + 1 ≤ 8 ∧ 0 < 1 : Prop) := by decide
/-- Disjoint fields that touch, and overlapping fields, in both byte orders. -/
theorem test_witness_FieldReadWriteLaws :
    checkField 8 63 1 = none ∧ checkField 8 0 64 = none ∧ checkField 8 0 4 = none ∧ checkField 8 4 8 = none ∧
      (∀ p ∈ bitSet .intel 0 4, p ∉ bitSet .intel 4 8) ∧ (∀ p ∈ bitSet .motorola 0 8, p ∉ bitSet .intel 8 8) ∧
      fieldBit .intel 0 8 4 = fieldBit .intel 4 8 0 ∧ fieldBit .motorola 0 8 0 = fieldBit .intel 0 8 0 := by decide

/-- The field that ends at the frame's last bit, for frames of one and of eight bytes. -/
theorem test_witness_ExtractCompletes :
    State.reset.Ready ∧ ((8 : BitVec 4).toNat ≤ 8 ∧ 1 ≤ (64 : BitVec 8).toNat ∧
      (0 : BitVec 8).toNat + (64 : BitVec 8).toNat ≤ 8 * (8 : BitVec 4).toNat) ∧
      (1 ≤ (1 : BitVec 8).toNat ∧ (7 : BitVec 8).toNat + (1 : BitVec 8).toNat ≤ 8 * (1 : BitVec 4).toNat) := by decide
theorem test_witness_ExtractCornerCases :
    (63 < 64 ∧ 8 ≤ 8 : Prop) ∧
      (after (exec (.extract 8 0 64 .intel true 0) State.reset) fun t => t.rsp.isSome) = some true := by decide
theorem test_witness_InsertCompletes :
    State.reset.Ready ∧ ((8 : BitVec 4).toNat ≤ 8 ∧ 1 ≤ (1 : BitVec 8).toNat ∧
      (63 : BitVec 8).toNat + (1 : BitVec 8).toNat ≤ 8 * (8 : BitVec 4).toNat) ∧
      ((7, 6) : Nat × Nat) ∉ bitSet .intel 63 1 := by decide
/-- FLEN 9; LEN 0 with an impossible START; one bit beyond the bound; FLEN 0. -/
theorem test_witness_FieldCommandsRaiseFatalOnBadBounds :
    State.reset.Ready ∧ 8 < (9 : BitVec 4).toNat ∧ ((8 : BitVec 4).toNat ≤ 8 ∧ (0 : BitVec 8).toNat = 0) ∧
      (1 ≤ (64 : BitVec 8).toNat ∧ 8 * (8 : BitVec 4).toNat < (1 : BitVec 8).toNat + (64 : BitVec 8).toNat) ∧
      8 * (0 : BitVec 4).toNat < (0 : BitVec 8).toNat + (1 : BitVec 8).toNat := by decide

theorem test_witness_DecodeCompletesExactly :
    State.reset.Ready ∧ 64 + State.reset.cfg.par.wCoef + 1 ≤ State.reset.cfg.par.wEng := by decide
/-- LEN 1 and LEN 64, MIN = MAX, a negative scale. -/
theorem test_witness_EncodeCompletes :
    State.reset.Ready ∧ 1 ≤ (1 : BitVec 8).toNat ∧ (64 : BitVec 8).toNat ≤ 64 ∧
      sint State.reset.cfg.par.wCoef (-32768) ≠ 0 ∧
      sint State.reset.cfg.par.wEng 196608 ≤ sint State.reset.cfg.par.wEng 196608 := by decide
/-- The four rows of 95_test_vectors section 2.7. -/
theorem test_witness_EncodeRaisesFatalInOrder :
    State.reset.Ready ∧ (0 : BitVec 8).toNat = 0 ∧ 64 < (65 : BitVec 8).toNat ∧
      (1 ≤ (8 : BitVec 8).toNat ∧ (8 : BitVec 8).toNat ≤ 64 ∧ sint State.reset.cfg.par.wCoef 0 = 0) ∧
      (sint State.reset.cfg.par.wCoef 1 ≠ 0 ∧
        sint State.reset.cfg.par.wEng 1 < sint State.reset.cfg.par.wEng 5) := by decide
theorem test_witness_RoundingIsToNearestTiesAway :
    ((2 : Int) ≠ 0) ∧ 2 * |roundHaz 5 2 * 2 - 5| = |2| ∧ 2 * |roundHaz (-5) 2 * 2 - (-5)| = |2| := by decide
/-- A tie between two integers of which one is even. -/
theorem test_witness_RoundingRulesOfTheOpenParameter :
    (2 : Int) ≠ 0 ∧ 2 * |roundBy .halfEven 5 2 * 2 - 5| = |2| ∧ 2 * |roundBy .halfEven (-7) 2 * 2 - (-7)| = |2| := by decide
/-- LEN 1 and 64; quotients at both ends of the range (95_test_vectors N8, N11). -/
theorem test_witness_EncodedIntegerStaysInFieldRange :
    (1 ≤ 1 ∧ 64 ≤ 64 : Prop) ∧ (-(2 ^ (1 - 1)) + (if Config.params.signedClamp = .symmetric then 1 else 0) : Int) = 0 ∧
      roundBy .towardZero (clamp (-268435456) (-268435456) 0 - 0) 8192 = -(2 ^ 15) ∧ roundHaz (clamp 268427264 (-268427264) 268427264 - 0) 8192 = 2 ^ 15 - 1 ∧
      roundHaz (clamp (-268427264) (-268427264) 268427264 - 0) 8192 = -(2 ^ 15 - 1) ∧
      roundHaz (clamp 16773120 0 16773120 - 0) 4096 = 2 ^ 12 - 1 := by decide
/-- Beyond each limit and beyond each end of the range (95_test_vectors N3, N5, N6, N7, N14, N15). -/
theorem test_witness_EncodingClampsAtBothStages :
    ((32768000 : Int) ≤ 655294464 ∧ (-655294464 : Int) ≤ -32768000 ∧ (-32768000 : Int) ≤ 32768000) ∧
      (2 : Int) ^ 15 - 1 ≤ roundHaz (clamp 655294464 (-655294464) 655294464 - 0) 8192 ∧
      roundHaz (clamp (-655294464) (-655294464) 655294464 - 0) 8192 ≤ -(2 ^ 15 - 1) ∧
      (2 : Int) ^ 12 - 1 ≤ roundHaz (clamp 19660800 (-65536) 19660800 - 0) 4096 ∧
      roundHaz (clamp (-65536) (-65536) 19660800 - 0) 4096 ≤ 0 := by decide
/-- A quotient at the upper end (95_test_vectors N8) and a tie (N16). -/
theorem test_witness_EncodeDecodeRoundTrip :
    ((8192 : Int) ≠ 0 ∧ -(2 ^ 15 - 1) ≤ roundHaz (268427264 - 0) 8192 ∧ roundHaz (268427264 - 0) 8192 ≤ 2 ^ 15 - 1) ∧
      (0 ≤ roundHaz (2048 - 0) 4096 ∧ roundHaz (2048 - 0) 4096 ≤ 2 ^ 12 - 1) ∧ (48 + 16 ≤ 64 : Prop) ∧
      Config.params.round = .halfAway ∧
      (0 ≤ roundBy .towardZero (6143 - 0) 4096 ∧ roundBy .towardZero (6143 - 0) 4096 ≤ 2 ^ 12 - 1) := by decide

theorem test_witness_GetidAndGetperiodComplete : State.reset.Ready := by decide
theorem test_x1_fits : Config.x1.Fits := ⟨by decide, by decide, by decide, by decide, by decide, by decide⟩
theorem test_x2_fits : x2.Fits := ⟨by decide, by decide, by decide, by decide, by decide, by decide⟩
/-- FLEN equal to DLEN and FLEN 15, DLEN 8 and DLEN 4; an index at NSIG; test_x1_fits and test_x2_fits meet the rest. -/
theorem test_witness_ParseDecodesEverySignal :
    (State.reset.Ready ∧ State.reset.cfg.Valid ∧ State.reset.cd.Wf ∧
      State.reset.cfg.dlen.toNat ≤ (8 : BitVec 4).toNat ∧ State.reset.cfg.dlen.toNat ≤ (15 : BitVec 4).toNat ∧
      State.reset.cfg.descs[0]? = some angle ∧ State.reset.cfg.nsig ≤ 5) ∧
    ((built x2).Ready ∧ (built x2).cfg.Valid ∧ (built x2).cd.Wf ∧ (built x2).cfg.dlen.toNat ≤ (4 : BitVec 4).toNat) := by
  decide
theorem test_witness_ShortFrameIsSkipped :
    State.reset.Ready ∧ (7 : BitVec 4).toNat < State.reset.cfg.dlen.toNat ∧
      (0 : BitVec 4).toNat < State.reset.cfg.dlen.toNat := by decide
/-- A row of a list of five, said of an index and of a member. -/
theorem test_later_rows {l : List Desc} {n k : Nat} {P : Desc → Prop} (h : ∀ e ∈ l.drop (n + 1), P e) (hk : n < k)
    {e : Desc} (he : l[k]? = some e) : P e := by
  apply h e
  rw [List.mem_iff_getElem?]
  exact ⟨k - (n + 1), by rw [List.getElem?_drop, show n + 1 + (k - (n + 1)) = k by omega]; exact he⟩

/-- The top bit of ANGLE, and a bit nothing covers. -/
theorem test_witness_UpdateCompletes_x1 :
    State.reset.Ready ∧ State.reset.cfg.Valid ∧ State.reset.cfg.descs[0]? = some angle ∧ angle.wr = true ∧
      15 < angle.len ∧
      (∀ k' e, 0 < k' → State.reset.cfg.descs[k']? = some e → e.wr = true →
        fieldBit angle.order angle.start angle.len 15 ∉ bitSet e.order e.start e.len) ∧
      (∀ d ∈ State.reset.cfg.descs, d.wr = true → ((7, 7) : Nat × Nat) ∉ bitSet d.order d.start d.len) :=
  ⟨by decide, by decide, by decide, by decide, by decide,
    fun _ _ hk he hw => test_later_rows (n := 0) (l := Config.x1.descs)
      (P := fun e => fieldBit angle.order angle.start angle.len 15 ∉ bitSet e.order e.start e.len) (by decide) hk he,
    by decide⟩
/-- Bit 3 of X2's WORD, which the later NIB does not cover. -/
theorem test_witness_UpdateCompletes_x2 :
    (built x2).Ready ∧ (built x2).cfg.Valid ∧
      (∀ k' e, 0 < k' → x2.descs[k']? = some e → e.wr = true → fieldBit .intel 0 16 3 ∉ bitSet e.order e.start e.len) :=
  ⟨by decide, by decide, fun _ _ hk he hw => test_later_rows (n := 0) (l := x2.descs)
    (P := fun e => fieldBit .intel 0 16 3 ∉ bitSet e.order e.start e.len) (by decide) hk he⟩
/-- 100.0 staged in ANGLE: within its limits, its quotient within the field's range, no later field over it. -/
theorem test_witness_UpdatedFrameParsesBackWithinHalfACount :
    stagedX1.Ready ∧ stagedX1.cfg.Fits ∧ stagedX1.cfg.Valid ∧ stagedX1.cd.Wf ∧ stagedX1.cfg.par.round = .halfAway ∧
      stagedX1.cfg.descs[0]? = some angle ∧ angle.wr = true ∧
      (∀ k' e, 0 < k' → stagedX1.cfg.descs[k']? = some e → e.wr = true → ∀ p ∈ angle.bits, p ∉ e.bits) ∧
      angle.min ≤ stagedX1.readCmd 0 ∧ stagedX1.readCmd 0 ≤ angle.max ∧
      -(2 ^ 15 - 1) ≤ roundBy stagedX1.cfg.par.round (stagedX1.readCmd 0 - angle.offset) angle.scale ∧
      roundBy stagedX1.cfg.par.round (stagedX1.readCmd 0 - angle.offset) angle.scale ≤ 2 ^ 15 - 1 :=
  ⟨by decide, test_x1_fits, by decide, by decide, by decide, by decide, by decide,
    fun _ _ hk he _ => test_later_rows (n := 0) (l := Config.x1.descs) (P := fun e => ∀ p ∈ angle.bits, p ∉ e.bits)
      (by decide) hk he,
    by decide, by decide, by decide, by decide⟩
theorem test_witness_UpdateIsRepeatable :
    stagedX1.Ready ∧ stagedX1.cfg.Valid ∧ (after (exec .update stagedX1) fun _ => ()) = some () := by decide
/-- A writable index, an index that is not writable, an index beyond the table. -/
theorem test_witness_ResetLoadsTheDefaults :
    stagedX1.Ready ∧ stagedX1.cfg.descs[0]? = some angle ∧ angle.wr = true ∧
      (stagedX1.cfg.descs[3]?.map Desc.wr) = some false ∧ stagedX1.cfg.descs[5]? = none := by decide
theorem test_witness_ResetIsIdempotentAndForgetsTheState :
    stagedX1.Ready ∧ State.reset.Ready ∧ stagedX1.cfg = State.reset.cfg ∧ stagedX1.cfg.Valid ∧
      (after (exec .reset stagedX1) fun _ => ()) = some () := by decide
theorem test_witness_StageWritesOneRegister :
    State.reset.Ready ∧ State.reset.cmd.Wf ∧ State.reset.cfg.descs[(4 : BitVec 8).toNat]?.map Desc.wr = some true ∧
      1 ≤ State.reset.cfg.par.wEng ∧ -(2 ^ (State.reset.cfg.par.wEng - 1)) ≤ (-32768000 : Eng) ∧
      (-32768000 : Eng) < 2 ^ (State.reset.cfg.par.wEng - 1) := by decide
/-- The index NSIG, the index 255, and an index that is not writable. -/
theorem test_witness_StageRefusesBadIndex :
    State.reset.Ready ∧ State.reset.cfg.nsig ≤ (5 : BitVec 8).toNat ∧ State.reset.cfg.nsig ≤ (255 : BitVec 8).toNat ∧
      State.reset.cfg.descs[(3 : BitVec 8).toNat]?.map Desc.wr = some false := by decide
theorem test_witness_StagingCornerCases :
    State.reset.Ready ∧ State.reset.cfg.Valid ∧ State.reset.cmd.Wf ∧ State.reset.cfg.writable (0 : BitVec 8).toNat = true ∧
      State.reset.cfg.descs[(0 : BitVec 8).toNat]? = some angle ∧ State.reset.cfg = Config.x1 ∧
      ((2, 0) : Nat × Nat) ∉ angle.bits := by decide
theorem test_witness_StagingCornerCases_next :
    (∃ t u, exec (.stage 0 1) State.reset = .next t ∧ exec (.stage 0 2) t = .next u) ∧
    (∃ t u v, exec .update State.reset = .next t ∧ exec (.stage 0 1) t = .next u ∧ exec .update u = .next v) ∧
    (∃ t u w, exec (.stage 0 1) State.reset = .next t ∧ exec .reset t = .next u ∧ exec .reset State.reset = .next w) :=
  ⟨⟨_, _, rfl, rfl⟩, ⟨_, _, _, rfl, rfl, rfl⟩, ⟨_, _, _, rfl, rfl, rfl⟩⟩
theorem test_witness_RdstateCompletes :
    State.reset.Ready ∧ (after (exec .update State.reset) fun _ => ()) = some () ∧
      (after (exec .reset State.reset) fun _ => ()) = some () := by decide
theorem test_witness_RdstatusCompletesInReadyAndFatal : State.reset.Ready ∧ fatalX1.Fatal := by decide

theorem test_witness_FatalRefusesAllButRdstatus :
    fatalX1.Fatal ∧ fatalX1.port = [] ∧ (Command.bare 0xC001).hdr ≠ 0xC000 ∧ (Command.bare 0x7000).hdr ≠ 0xC000 ∧
      Instr.reset ≠ .rdstatus := by decide
/-- A next state with each outcome of the table: ST_OK, ST_SHORT, ST_BADIDX, ST_FATAL_NOW, ST_FATAL. -/
theorem test_witness_CommandOutcomeTable :
    ([(Instr.getid, State.reset, RspStatus.ok), (.parse 7 0, State.reset, .short), (.stage 3 0, State.reset, .badIdx),
      (.extract 8 0 0 .intel false 0, State.reset, .fatalNow), (.encode 0 0 0 8 false 0 0, State.reset, .fatalNow),
      (.update, fatalX1, .fatal)].all fun p =>
        p.1.wellFormed && after (exec p.1 p.2.1) (fun t => t.rsp.map (·.status)) == some (some p.2.2)) = true := by decide
theorem test_witness_EveryCommandGetsOneResponse :
    State.reset.status.phase ≠ .constructed ∧
      (after (step (State.onPort State.reset (.command (Command.bare 0x0000)))) rspData) = some (some (.illegal, 0)) ∧
      (after (exec .rdstate State.reset) fun t => t.rsp.isSome) = some true := by decide

/-- A valid configuration, and one whose first check fails. -/
theorem test_witness_ResetSequenceReadyOrFatal :
    (State.onPort State.reset .rst).port = [.rst] ∧ State.reset.cfg.Valid ∧
      constructionCheck { Config.x1 with dlen := 0 } = some (.geometry, 0xFF) ∧
      State.reset.cfg.descs[0]? = some angle ∧ angle.wr = true ∧ (State.reset.cfg.descs[3]?.map Desc.wr) = some false := by
  decide
/-- The geometry clause at both ends. -/
theorem test_witness_ConstructionChecksInOrder_geometry :
    (0 : BitVec 4).toNat = 0 ∧ 8 < (9 : BitVec 4).toNat ∧
      255 < CodecConfig.nsig { Config.x1 with descs := List.replicate 256 angle } :=
  ⟨by decide, by decide, by
    show 255 < (List.replicate 256 angle).length
    rw [List.length_replicate]; decide⟩
/-- A first row that fails each of the tests a to e. -/
theorem test_witness_ConstructionChecksInOrder_first_row (c : CodecConfig) :
    ¬ c.RowOk 0 ⟨0x0017100C, 8192, 0, 0, 1, 0⟩ ∧ ¬ c.RowOk 0 ⟨0x000400FA, 8192, 0, 0, 1, 0⟩ ∧
      ¬ c.RowOk 0 ⟨0x00071000, 0, 0, 0, 1, 0⟩ ∧ ¬ c.RowOk 0 ⟨0x00071000, 8192, 0, 1, 0, 0⟩ ∧
      (c.dlen = 8 → ¬ c.RowOk 0 ⟨0x00074001, 8192, 0, 0, 1, 0⟩) :=
  ⟨fun h => absurd h.reserved (by decide), fun h => absurd h.len (by decide), fun h => absurd h.scale (by decide),
    fun h => absurd h.limits (by decide), fun hd h => absurd h.range (by rw [hd]; decide)⟩
/-- Test f: a second row over the first, neither declaring it, below which every row passes. -/
theorem test_witness_ConstructionChecksInOrder_overlap :
    ¬ CodecConfig.RowOk { Config.x1 with descs := [angle, { angle with ctl := 0x0004080C }] } 1
        { angle with ctl := 0x0004080C } ∧
      CodecConfig.RowOk { Config.x1 with descs := [angle, { angle with ctl := 0x0004080C }] } 0 angle := by
  refine ⟨fun h => ?_, ⟨by decide, by decide, by decide, by decide, by decide, fun j _ hj => absurd hj (by omega)⟩⟩
  rcases h.apart 0 angle (by omega) rfl with h | h | h
  · exact absurd h (by decide)
  · exact absurd h (by decide)
  · exact absurd (h (1, 4) (by decide)) (by decide)
theorem test_witness_ResetDuringACommandDropsIt :
    (State.onPort State.reset (.rstDuring { Command.bare 0x5800 with frame := 1 })).port =
        [.rstDuring { Command.bare 0x5800 with frame := 1 }] ∧
      State.reset.status.phase ≠ .constructed ∧ State.reset.cfg.Valid ∧ State.reset.cd.Wf ∧
      decode { Command.bare 0x5800 with frame := 1 } = .ok (.parse 8 1) := by decide
/-- X1 is default-consistent, X2 is not (95_test_vectors section 3). -/
theorem test_witness_DefaultConsistencyDecidesTheFirstUpdate :
    Config.x1.DefaultConsistent ∧ ¬ x2.DefaultConsistent := by decide
theorem test_witness_DefaultConsistencyDecidesTheFirstUpdate_next :
    ∃ t u, State.reset.Ready ∧ exec .reset State.reset = .next t ∧ exec .update t = .next u := ⟨_, _, rfl, rfl, rfl⟩

/-- The invariant of a state that is not the reset state: X2 after `rst`, with a command on its port. -/
theorem test_x2_inv : (State.onPort (built x2) (.command (Command.bare 0x6000))).Inv where
  fits        := test_x2_fits
  settled     := by decide
  readyValid  := fun _ => by decide
  readyClean  := fun _ => by decide
  fatalCause  := fun h => absurd h (by decide)
  cmdWf       := by decide
  cmdKeys     := fun k => by
    have h : (State.onPort (built x2) (.command (Command.bare 0x6000))).cmd = cmdFile x2 fun d _ => d.defCmd := by decide
    rw [h]; exact cmdFile_keys x2 _ k
  cmdFits     := fun k v hv => by
    have h : (State.onPort (built x2) (.command (Command.bare 0x6000))).cmd = cmdFile x2 fun d _ => d.defCmd := by decide
    rw [h] at hv
    exact cmdFile_fits (fun d hd _ => test_x2_fits.defCmd d hd) hv
  cdWf        := by decide
  cdKeys      := fun _ h => absurd h (by simp [State.onPort, built, State.reset])
  cdFits      := fun _ _ h => absurd h (by simp [State.onPort, built, State.reset, RegFile.read])
  csUncovered := fun _ _ _ _ _ => by
    have h : (State.onPort (built x2) (.command (Command.bare 0x6000))).cs = x2.defBytes := by decide
    rw [h]; rfl
theorem test_witness_StepKeepsTheInvariant :
    ∃ s t : State, s.Inv ∧ step s = .next t := ⟨_, _, test_x2_inv, rfl⟩

/-- A step of each kind that changes something, from READY and from FATAL. -/
theorem test_witness_ConfigurationNeverChanges : ∃ t, step (State.onPort State.reset .rst) = .next t := ⟨_, rfl⟩
/-- CONSTRUCTED; `rst` with a valid and with an invalid configuration; an idle step and a command in READY and FATAL; a
command that raises Fatal. -/
theorem test_witness_PhaseTransitions :
    State.reset.enterConstructed.status.phase = .constructed ∧ Config.x1.Valid ∧
      ¬ CodecConfig.Valid { Config.x1 with dlen := 0 } ∧ (State.reset.port = [] ∧ State.reset.Ready) ∧
      (fatalX1.port = [] ∧ fatalX1.Fatal) ∧
      (after (step (State.onPort State.reset (.command (Command.bare 0x6000)))) (·.status.phase)) = some .ready ∧
      (after (step (State.onPort State.reset (.command (Command.bare 0x1800)))) (·.status.phase)) = some .fatal ∧
      (after (step (State.onPort fatalX1 (.command (Command.bare 0x6000)))) (·.status.phase)) = some .fatal := by decide
/-- The flag is set by a skipped PARSE, stays set through UPDATE, and `rst` clears it. -/
theorem test_witness_LogShortIsSticky :
    (after (step (State.onPort State.reset (.command (Command.bare 0x5700)))) (·.status.logShort)) = some true ∧
      (after (step (State.onPort { State.reset with status := State.reset.status.setLogShort }
        (.command (Command.bare 0x6000)))) (·.status.logShort)) = some true ∧
      (after (step (State.onPort { State.reset with status := State.reset.status.setLogShort } .rst))
        (·.status.logShort)) = some false := by decide
theorem test_witness_FirstFatalCauseIsKept :
    fatalX1.Fatal ∧ (after (step (State.onPort fatalX1 (.command { Command.bare 0x1800 with desc := 0x00000000 })))
      (·.status)) = some fatalX1.status := by decide
theorem test_witness_ParseAndCodecStateAreIndependent :
    ∃ a b a' b', exec (.parse 8 1) State.reset = .next a ∧ exec .update a = .next b ∧
      exec .update State.reset = .next a' ∧ exec (.parse 8 1) a' = .next b' := ⟨_, _, _, _, rfl, rfl, rfl, rfl⟩
/-- Each register is changed by a command that may write it. -/
theorem test_witness_EachRegisterHasItsWriters :
    after (exec .update stagedX1) (fun t => decide (t.cs ≠ stagedX1.cs)) = some true ∧
      after (exec .reset stagedX1) (fun t => decide (t.cmd ≠ stagedX1.cmd)) = some true ∧
      after (exec (.parse 8 1) stagedX1) (fun t => decide (t.cd ≠ stagedX1.cd)) = some true ∧
      after (exec (.parse 7 1) stagedX1) (fun t => t.status.logShort) = some true ∧
      after (exec (.insert 8 0 0 .intel 0 0) stagedX1) (fun t => t.status.phase) = some .fatal := by decide
/-- DLEN 4: bytes 4 and 7. -/
theorem test_witness_CodecStateTailHoldsTheDefaults :
    ∃ s : State, s.Inv ∧ s.Ready ∧ s.cfg.dlen.toNat ≤ 4 ∧ s.cfg.dlen.toNat ≤ 7 :=
  ⟨_, test_x2_inv, by decide, by decide, by decide⟩
/-- X1's ENABLE with a frame that sets it and one that does not. -/
theorem test_witness_BooleanSignalIsZeroOrOne :
    (Config.x1.descs[2]?.map fun d => (d.len, d.signed, d.scale, d.offset)) =
        some (1, false, 2 ^ Config.params.frac, 0) ∧
      64 + Config.params.wCoef + 1 ≤ Config.params.wEng ∧ sint Config.params.wCoef (2 ^ Config.params.frac) = 65536 := by
  decide
theorem test_witness_PresentedWordIsExecutedNext :
    State.reset.status.phase ≠ .constructed ∧ decodeTableWord 16 0xA0FF = some (.stage 255 0) ∧
      fatalX1.status.phase ≠ .constructed := by decide
theorem test_witness_IdleStepChangesNoRegister :
    (State.reset.port = [] ∧ State.reset.status.phase ≠ .constructed) ∧
      (fatalX1.port = [] ∧ fatalX1.status.phase ≠ .constructed) := by decide

end Sys2Proof.Tests
end

section
/-! PROOFS. The scope of the block (spec/00_scope.md): the invariant of the reachable states part by part, the step that
keeps it, and what else a step answers whatever the state. -/

namespace Sys2Proof

open Sys2Proof.Machine

/-! ## The invariant part by part

Each part speaks of one register and the configuration, so that an operation is looked at only in the part it writes. -/

/-- What the invariant says of STATUS. -/
structure CodecConfig.StatusOk (c : CodecConfig) (st : Status) : Prop where
  settled    : st.phase ≠ .constructed
  readyValid : st.phase = .ready → c.Valid
  readyClean : st.phase = .ready → st.fcause = .noFatal ∧ st.fidx = 0
  fatalCause : st.phase = .fatal → st.fcause ≠ .noFatal

/-- What the invariant says of CMD. -/
structure CodecConfig.CmdOk (c : CodecConfig) (r : RegFile) : Prop where
  wf   : r.Wf
  keys : ∀ k, (r.read k).isSome = c.writable k
  fits : ∀ k v, r.read k = some v → sint c.par.wEng v = v

/-- What the invariant says of CD, and what holds of any writes to it. -/
structure CodecConfig.CdOk (c : CodecConfig) (r : RegFile) : Prop where
  wf   : r.Wf
  keys : ∀ k, (r.read k).isSome = true → k < c.nsig
  fits : ∀ k v, r.read k = some v → sint c.par.wEng v = v

/-- What the invariant says of CS in READY (42_codec R128 a). -/
def CodecConfig.CsOk (c : CodecConfig) (F : Frame) : Prop :=
  ∀ p : Nat × Nat, p.1 < 8 → p.2 < 8 → ¬ c.Covers p → frameBit F p = frameBit c.defBytes p

end Sys2Proof

namespace Sys2Proof.Machine

theorem inv_iff {s : State} :
    s.Inv ↔ s.cfg.Fits ∧ s.cfg.StatusOk s.status ∧ s.cfg.CmdOk s.cmd ∧ s.cfg.CdOk s.cd ∧
      (s.Ready → s.cfg.CsOk s.cs) where
  mp h := ⟨h.fits, ⟨h.settled, h.readyValid, h.readyClean, h.fatalCause⟩, ⟨h.cmdWf, h.cmdKeys, h.cmdFits⟩,
    ⟨h.cdWf, h.cdKeys, h.cdFits⟩, h.csUncovered⟩
  mpr := fun ⟨hfits, hst, hcmd, hcd, hcs⟩ =>
    { fits := hfits
      settled := hst.settled, readyValid := hst.readyValid, readyClean := hst.readyClean, fatalCause := hst.fatalCause
      cmdWf := hcmd.wf, cmdKeys := hcmd.keys, cmdFits := hcmd.fits
      cdWf := hcd.wf, cdKeys := hcd.keys, cdFits := hcd.fits
      csUncovered := hcs }

/-- The port, the response, the `cd` pulses and the counter of draws are no part of the invariant. -/
theorem State.Inv.of_same_registers {s t : State} (h : s.Inv) (hcfg : t.cfg = s.cfg) (hcs : t.cs = s.cs)
    (hcmd : t.cmd = s.cmd) (hst : t.status = s.status) (hcd : t.cd = s.cd) : t.Inv := by
  rw [inv_iff] at h ⊢
  rwa [State.Ready, hcfg, hcs, hcmd, hst, hcd]

/-! ### STATUS -/

theorem statusOk_setLogShort {c : CodecConfig} {st : Status} (h : c.StatusOk st) : c.StatusOk st.setLogShort :=
  ⟨h.settled, h.readyValid, h.readyClean, h.fatalCause⟩

theorem statusOk_raise {c : CodecConfig} {cause : Cause} (h : cause ≠ .noFatal) (st : Status) (idx : BitVec 8) :
    c.StatusOk (st.raise cause idx) where
  settled := by simp
  readyValid := by simp
  readyClean := by simp
  fatalCause := by simpa using h

/-- STATUS at the end of a reset sequence whose checks passed. -/
theorem statusOk_cleared_ready {c : CodecConfig} (h : c.Valid) : c.StatusOk { Status.cleared with phase := .ready } where
  settled := by simp
  readyValid := fun _ => h
  readyClean := by simp
  fatalCause := by simp

/-! ### CMD -/

theorem cmdOk_cmdFile {c : CodecConfig} {f : Desc → Nat → Eng}
    (h : ∀ d ∈ c.descs, ∀ k, sint c.par.wEng (f d k) = f d k) : c.CmdOk (cmdFile c f) :=
  ⟨wf_cmdFile c f, cmdFile_keys c f, fun _ _ => cmdFile_fits h⟩

/-- DEF_CMD as a register file (10_state R20). -/
theorem cmdOk_defaults {c : CodecConfig} (h : c.Fits) : c.CmdOk (cmdFile c fun d _ => d.defCmd) :=
  cmdOk_cmdFile fun d hd _ => h.defCmd d hd

/-- What a failed construction leaves in CMD (10_state R33): any values, of the width of their registers. -/
theorem cmdOk_free (c : CodecConfig) (x : Nat → Eng) : c.CmdOk (cmdFile c fun _ k => sint c.par.wEng (x k)) :=
  cmdOk_cmdFile fun _ _ k => sint_sint _ (x k)

/-- The write of STAGE (42_codec R131). -/
theorem cmdOk_write {c : CodecConfig} {r : RegFile} (h : c.CmdOk r) {k : Nat} (hk : c.writable k = true) (v : Eng) :
    c.CmdOk (r.write k (sint c.par.wEng v)) where
  wf := RegFile.wf_write h.wf k _
  keys j := by
    rw [RegFile.read_write _ _ _ _ h.wf]
    split
    · next hj => rw [hj, hk]; rfl
    · exact h.keys j
  fits j u hu := by
    rw [RegFile.read_write _ _ _ _ h.wf] at hu
    split at hu
    · rw [← Option.some.inj hu, sint_sint]
    · exact h.fits j u hu

/-! ### CD -/

/-- In canonical form a read gives the one entry with that index. -/
theorem RegFile.read_eq_some {r : RegFile} (hr : r.Wf) {k : Nat} {v : Eng} : r.read k = some v ↔ (k, v) ∈ r := by
  induction r with
  | nil => simp
  | cons e r ih =>
    obtain ⟨j, w⟩ := e
    obtain ⟨hlt, hr⟩ := List.pairwise_cons.1 hr
    rw [RegFile.read_cons, List.mem_cons, Prod.mk.injEq]
    split
    · next hj =>
      have hout : (k, v) ∉ r := fun hmem => absurd (hlt _ hmem) (by simp [hj])
      simp [hj, hout, eq_comm]
    · next hj => simp [ih hr, Ne.symm hj]

theorem RegFile.read_filter {r : RegFile} (hr : r.Wf) {keep : Nat × Eng → Bool} {k : Nat} {v : Eng}
    (h : RegFile.read (r.filter keep) k = some v) : r.read k = some v := by
  rw [RegFile.read_eq_some (hr.filter keep)] at h
  exact (RegFile.read_eq_some hr).2 (List.mem_of_mem_filter h)

theorem cdOk_nil (c : CodecConfig) : c.CdOk [] :=
  ⟨List.Pairwise.nil, fun k h => absurd h (by simp), fun k v h => absurd h (by simp)⟩

/-- Some of the writes, in their order. -/
theorem cdOk_filter {c : CodecConfig} {r : RegFile} (h : c.CdOk r) (keep : Nat × Eng → Bool) :
    c.CdOk (r.filter keep) where
  wf := h.wf.filter keep
  keys k hk := by
    obtain ⟨v, hv⟩ := Option.isSome_iff_exists.1 hk
    exact h.keys k (by rw [RegFile.read_filter h.wf hv]; rfl)
  fits k v hv := h.fits k v (RegFile.read_filter h.wf hv)

theorem cdOk_writeAll {c : CodecConfig} {r ws : RegFile} (h : c.CdOk r) (hw : c.CdOk ws) : c.CdOk (r.writeAll ws) where
  wf := RegFile.wf_writeAll h.wf ws
  keys k hk := by
    rw [RegFile.read_writeAll h.wf hw.wf, Option.isSome_or, Bool.or_eq_true] at hk
    exact hk.elim (hw.keys k) (h.keys k)
  fits k v hv := by
    rw [RegFile.read_writeAll h.wf hw.wf, Option.or_eq_some_iff] at hv
    exact hv.elim (hw.fits k v) fun hold => h.fits k v hold.2

/-- The writes of a full PARSE (42_codec R124). -/
theorem cdOk_parseWrites (c : CodecConfig) (F : Frame) : c.CdOk (parseWrites c F) where
  wf := wf_parseWrites c F
  keys k hk := by
    rw [read_parseWrites, Option.isSome_map] at hk
    obtain ⟨d, hd⟩ := Option.isSome_iff_exists.1 hk
    exact (List.getElem?_eq_some_iff.1 hd).1
  fits k v hv := by
    rw [read_parseWrites] at hv
    obtain ⟨d, -, rfl⟩ := Option.map_eq_some_iff.1 hv
    exact sint_sint ..

/-- What a cut command may have written: part of a full PARSE, or nothing (70_reset_and_hazards R165). -/
theorem cutWrites_cases (s : State) (c : Command) :
    cutWrites s c = [] ∨ ∃ frame, cutWrites s c = parseWrites s.cfg frame := by
  unfold cutWrites
  split
  · next flen frame _ _ =>
    split
    · exact .inl rfl
    · exact .inr ⟨frame, rfl⟩
  · exact .inl rfl

theorem cdOk_cutDone (s : State) (c : Command) : s.cfg.CdOk (cutDone s c) := by
  refine cdOk_filter ?_ _
  rcases cutWrites_cases s c with h | ⟨frame, h⟩ <;> rw [h]
  · exact cdOk_nil _
  · exact cdOk_parseWrites _ _

/-! ### CS -/

/-- UPDATE writes covered bits alone (42_codec R128 a). -/
theorem csOk_updateFrame {c : CodecConfig} {F : Frame} (h : c.CsOk F) (x : Nat → Eng) : c.CsOk (updateFrame c x F) := by
  intro p h1 h2 hp
  rw [updateFrame_eq_walk, frameBit_walk_other _ _ _ _ _ h2 fun d hd hw hmem => hp ⟨d, hd, hw, hmem⟩]
  exact h p h1 h2 hp

/-! ## Every step keeps the invariant -/

/-- A reset sequence asks nothing of CS, CMD and STATUS, because it overwrites them (70_reset_and_hazards R162). -/
theorem inv_resetSequence {s : State} (hfits : s.cfg.Fits) (hcd : s.cfg.CdOk s.cd) : s.resetSequence.Inv := by
  rw [inv_iff]
  simp only [resetSequence_cfg, resetSequence_cd]
  cases hc : constructionCheck s.cfg with
  | none =>
    rw [State.resetSequence, construct_valid (s := s.enterConstructed) hc]
    exact ⟨hfits, statusOk_cleared_ready hc, cmdOk_defaults hfits, hcd, fun _ _ _ _ _ => rfl⟩
  | some p =>
    rw [State.resetSequence, construct_invalid (s := s.enterConstructed) hc]
    exact ⟨hfits, statusOk_raise (constructionCheck_cause hc) _ _, cmdOk_free _ _, hcd,
      fun hr => Phase.noConfusion hr⟩

theorem inv_cutByReset {s : State} (h : s.Inv) (c : Command) : (s.cutByReset c).Inv := by
  obtain ⟨hfits, -, -, hcd, -⟩ := inv_iff.1 h
  have hreset := inv_resetSequence (s := { s with cd := s.cd.writeAll (cutDone s c), draws := s.draws + 1 }) hfits
    (cdOk_writeAll hcd (cdOk_cutDone s c))
  exact hreset.of_same_registers rfl rfl rfl rfl rfl

theorem inv_fatalNow {s : State} (h : s.Inv) {cause : Cause} (hc : cause ≠ .noFatal) : (s.fatalNow cause).Inv := by
  obtain ⟨hfits, -, hcmd, hcd, -⟩ := inv_iff.1 h
  exact inv_iff.2 ⟨hfits, statusOk_raise hc _ _, hcmd, hcd, fun hr => Phase.noConfusion hr⟩

/-- A command executed in READY keeps each part, whichever of them it writes. -/
theorem inv_readyEffect {s : State} (h : s.Inv) (hr : s.Ready) (i : Instr) : (readyEffect i s).Inv := by
  obtain ⟨hfits, hst, hcmd, hcd, hcs⟩ := inv_iff.1 h
  obtain ⟨ecfg, -, -, est, ecs, ecmd, ecd⟩ := readyEffect_cases i s
  have hcmd' : s.cfg.CmdOk (readyEffect i s).cmd := by
    rcases ecmd with e | ⟨idx, eng, -, hw, e⟩ | ⟨-, e⟩ <;> rw [e]
    · exact hcmd
    · exact cmdOk_write hcmd hw eng
    · exact cmdOk_defaults hfits
  have hcd' : s.cfg.CdOk (readyEffect i s).cd := by
    rcases ecd with e | ⟨flen, frame, -, e⟩ <;> rw [e]
    · exact hcd
    · exact cdOk_writeAll hcd (cdOk_parseWrites _ _)
  have hcs' : s.cfg.CsOk (readyEffect i s).cs := by
    rcases ecs with e | ⟨-, e⟩ | ⟨-, e⟩ <;> rw [e]
    · exact hcs hr
    · exact csOk_updateFrame (hcs hr) _
    · exact fun _ _ _ _ => rfl
  have hst' : s.cfg.StatusOk (readyEffect i s).status := by
    rcases est with ⟨e, -⟩ | ⟨flen, frame, -, -, e⟩ | ⟨cause, hc, -, e⟩ <;> rw [e]
    · exact hst
    · exact statusOk_setLogShort hst
    · exact statusOk_raise hc _ _
  rw [inv_iff, ecfg]
  exact ⟨hfits, hst', hcmd', hcd', fun _ => hcs'⟩

/-- With nothing on the port a settled block does nothing (00_scope R12). -/
theorem idle_settled {s : State} (h : s.status.phase ≠ .constructed) : idle s = s.quiet := by
  unfold idle
  split
  · next hp => exact absurd hp h
  · rfl
  · rfl

/-- Settles O47: by the event at the head of the port, each part of the invariant for itself. -/
theorem stepKeepsTheInvariant : Obligations.StepKeepsTheInvariant := by
  intro s t h hstep
  have hport : ∀ rest, State.Inv { s with port := rest } := fun rest => h.of_same_registers rfl rfl rfl rfl rfl
  obtain ⟨hfits, -, -, hcd, -⟩ := inv_iff.1 h
  rcases step_cases hstep with ⟨-, rfl⟩ | ⟨rest, -, rfl⟩ | ⟨c, rest, -, hp, -⟩ | ⟨c, rest, -, -, rfl⟩ |
    ⟨c, rest, -, hp, -⟩ | ⟨c, rest, -, -, ⟨-, rfl⟩ | ⟨-, rfl⟩⟩ | ⟨c, rest, -, hr, ⟨e, -, rfl⟩ | ⟨i, -, rfl⟩⟩
  · rw [idle_settled h.settled]
    exact h.of_same_registers rfl rfl rfl rfl rfl
  · exact inv_resetSequence hfits hcd
  · exact absurd hp h.settled
  · exact inv_cutByReset (hport rest) c
  · exact absurd hp h.settled
  · exact h.of_same_registers rfl rfl rfl rfl rfl
  · exact h.of_same_registers rfl rfl rfl rfl rfl
  · exact h.of_same_registers rfl rfl rfl rfl rfl
  · exact inv_readyEffect (hport rest) hr i

/-! ## ENCODE and the rounding rules -/

/-- Both ends of the field's range, as SIGNED_CLAMP names them (41_transform R100). -/
theorem fieldRange_eq (c : SignedClamp) (len : Nat) (signed : Bool) :
    (fieldLo c len signed, fieldHi len signed) = (if signed = true then
        (-(2 ^ (len - 1)) + (if c = .symmetric then 1 else 0), 2 ^ (len - 1) - 1)
      else (0, 2 ^ len - 1) : Int × Int) := by
  rw [fieldLo_eq, fieldHi]
  cases signed <;> rfl

/-- ENCODE in READY with operands that pass its four tests (41_transform R98, R99). -/
theorem encodeResult_legal {S : Int} {len : Nat} {MIN MAX : Int} (h1 : 1 ≤ len) (h2 : len ≤ 64) (hS : S ≠ 0)
    (hlim : MIN ≤ MAX) (E O : Int) (signed : Bool) (s : State) :
    encodeResult E S O len signed MIN MAX s =
      s.respond (Response.okData (encodeValue s.cfg.par E S O len signed MIN MAX).toNat) := by
  rw [encodeResult, checkEncode_none.2 ⟨h1, h2, hS, hlim⟩]

/-- Settles O19: the legal outcome of ENCODE, with the range's ends written out. -/
theorem encodeCompletes : Obligations.EncodeCompletes := by
  rintro s eng scale offset len signed min max _ _ _ _ _ lo hi hr rfl rfl rfl rfl rfl h1 h2 hS hlim hrange
  rw [← fieldRange_eq] at hrange
  obtain ⟨rfl, rfl⟩ := Prod.mk.inj hrange
  rw [exec_ready hr, readyEffect, encodeReady, encodeResult_legal h1 h2 hS hlim]
  rfl

/-- Settles O60: each rule by what the scaler's lemmas say of it. -/
theorem roundingRulesOfTheOpenParameter : Obligations.RoundingRulesOfTheOpenParameter := by
  intro n d hd
  obtain ⟨-, -, htie⟩ := roundHalfEven_spec (n := n) hd
  refine ⟨rfl, roundBy_near (.inr rfl) hd, fun h => htie ?_, roundTowardZero_spec hd⟩
  rcases abs_cases (roundBy .halfEven n d * d - n) with ⟨he, -⟩ | ⟨he, -⟩ <;> rw [he] at h
  · exact .inl h
  · exact .inr (by omega)

/-! ## The reset state, and steps that always exist -/

/-- Settles O44: the values of X1, evaluated. -/
theorem resetStateIsTheConstructedExample : Obligations.ResetStateIsTheConstructedExample := by
  have hfits : Config.x1.Fits := ⟨by decide, by decide, by decide, by decide, by decide, by decide⟩
  exact ⟨rfl, rfl, hfits, by decide, by decide, by decide, RegFile.read_nil⟩

/-- Outside phase CONSTRUCTED every command has an answer (30_encoding R68). -/
theorem runCommand_answers {s : State} (h : s.status.phase ≠ .constructed) (c : Command) :
    ∃ t, runCommand c s = .next t := by
  cases hp : s.status.phase with
  | constructed => exact absurd hp h
  | ready =>
    rcases runCommand_cases c s with ⟨i, -, e⟩ | ⟨_, -, e⟩ <;> rw [e]
    · exact ⟨_, exec_ready hp i⟩
    · exact ⟨_, execIllegal_ready hp⟩
  | fatal =>
    by_cases hc : c.hdr = 0xC000
    · rw [runCommand, decode_rdstatus hc]
      exact ⟨_, exec_rdstatus_fatal hp⟩
    · exact ⟨_, runCommand_fatal hp hc⟩

/-- Settles O49: by the event at the head of the port; in phase CONSTRUCTED the reset sequence runs instead of a
command. -/
theorem everyStepAnswersANextState : Obligations.EveryStepAnswersANextState := by
  intro s
  rcases hport : s.port with _ | ⟨e, rest⟩
  · exact ⟨_, step_idle hport⟩
  simp only [step, hport]
  cases e with
  | rst => exact ⟨_, takeEvent_rst⟩
  | rstDuring c =>
    by_cases hp : s.status.phase = .constructed
    · exact ⟨_, takeEvent_rstDuring_constructed hp⟩
    · exact ⟨_, takeEvent_cut hp⟩
  | command c =>
    by_cases hp : s.status.phase = .constructed
    · exact ⟨_, takeEvent_command_constructed hp⟩
    · rw [takeEvent_command hp]
      exact runCommand_answers (s := { s with port := rest }) hp c

/-- Settles O59: the idle step of a settled block. -/
theorem idleStepChangesNoRegister : Obligations.IdleStepChangesNoRegister := by
  intro s hport hp
  rw [step_idle hport, idle_settled hp]
  rfl

end Sys2Proof.Machine
end

section
/-! PROOFS. The registers of the block (spec/10_state.md): which of them a step can write, what LOG_SHORT and the tail of
CS hold, the layout of STATUS, and the value of a boolean signal. -/

namespace Sys2Proof.Machine

/-! ## The configuration -/

@[simp] theorem idle_cfg (s : State) : (idle s).cfg = s.cfg := by
  unfold idle; split <;> simp

@[simp] theorem cutByReset_cfg (s : State) (c : Command) : (s.cutByReset c).cfg = s.cfg := by
  simp [State.cutByReset]

@[simp] theorem readyEffect_cfg (i : Instr) (s : State) : (readyEffect i s).cfg = s.cfg :=
  (readyEffect_cases i s).1

/-- Settles O50: by what the step can be. -/
theorem configurationNeverChanges : Obligations.ConfigurationNeverChanges := by
  intro s t hstep
  rcases step_cases hstep with ⟨-, rfl⟩ | ⟨rest, -, rfl⟩ | ⟨c, rest, -, -, rfl⟩ | ⟨c, rest, -, -, rfl⟩ |
    ⟨c, rest, -, -, rfl⟩ | ⟨c, rest, -, -, ⟨-, rfl⟩ | ⟨-, rfl⟩⟩ | ⟨c, rest, -, -, ⟨e, -, rfl⟩ | ⟨i, -, rfl⟩⟩ <;> simp

/-! ## The writers of each register -/

/-- Settles O55: in READY by the cases of each register; in FATAL no command writes one. -/
theorem eachRegisterHasItsWriters : Obligations.EachRegisterHasItsWriters := by
  intro s t i hexec
  rcases exec_next hexec with ⟨-, rfl⟩ | ⟨-, -, rfl⟩ | ⟨-, -, rfl⟩
  · obtain ⟨hcfg, hport, hdraws, hst, hcs, hcmd, hcd⟩ := readyEffect_cases i s
    refine ⟨hcfg, hport, hdraws, fun hne => ?_, fun hne => ?_, fun hne => ?_, fun hne => ?_, fun hne => ?_⟩
    · rcases hcs with e | ⟨rfl, -⟩ | ⟨rfl, -⟩
      · exact absurd e hne
      · exact .inl rfl
      · exact .inr rfl
    · rcases hcmd with e | ⟨idx, eng, rfl, -⟩ | ⟨rfl, -⟩
      · exact absurd e hne
      · exact .inl rfl
      · exact .inr rfl
    · rcases hcd with e | ⟨flen, frame, rfl, -⟩
      · exact absurd e hne
      · rfl
    · rcases hst with ⟨e, -⟩ | ⟨flen, frame, rfl, -⟩ | ⟨cause, -, -, e⟩
      · exact absurd (by rw [e]) hne
      · rfl
      · exact absurd (by rw [e]; rfl) hne
    · rcases hst with ⟨e, -⟩ | ⟨flen, frame, -, -, e⟩ | ⟨cause, -, hi, -⟩
      · simp [e] at hne
      · simp [e] at hne
      · exact hi
  · simp
  · simp

/-! ## STATUS in FATAL -/

/-- Without `rst` a settled block changes STATUS only by executing a command in READY. -/
theorem status_step_without_rst {s t : State} (hstep : step s = .next t) (hp : s.status.phase ≠ .constructed)
    (hrst : ¬ ∃ rest, s.port = .rst :: rest) (hcut : ¬ ∃ c rest, s.port = .rstDuring c :: rest) :
    (t.status = s.status ∧ ∀ c rest i, s.port = .command c :: rest → s.Ready → decode c ≠ .ok i) ∨
    ∃ c rest i, s.port = .command c :: rest ∧ s.Ready ∧ decode c = .ok i ∧
      t = readyEffect i { s with port := rest } := by
  rcases step_cases hstep with ⟨hport, rfl⟩ | ⟨rest, hport, -⟩ | ⟨c, rest, hport, -⟩ | ⟨c, rest, hport, -⟩ |
    ⟨c, rest, -, hc, -⟩ | ⟨c, rest, -, hf, ⟨-, rfl⟩ | ⟨-, rfl⟩⟩ | ⟨c, rest, hport, hr, ⟨e, hd, rfl⟩ | ⟨i, hd, rfl⟩⟩
  · exact .inl ⟨by rw [idle_settled hp]; rfl, by simp [hport]⟩
  · exact absurd ⟨rest, hport⟩ hrst
  · exact absurd ⟨c, rest, hport⟩ hcut
  · exact absurd ⟨c, rest, hport⟩ hcut
  · exact absurd hc hp
  · exact .inl ⟨rfl, by simp [State.Ready, hf]⟩
  · exact .inl ⟨rfl, by simp [State.Ready, hf]⟩
  · refine .inl ⟨rfl, fun c' rest' i hport' _ hd' => ?_⟩
    obtain ⟨rfl, -⟩ : c = c' ∧ rest = rest' := by simpa [hport] using hport'
    simp [hd] at hd'
  · exact .inr ⟨c, rest, i, hport, hr, hd, rfl⟩

/-- Settles O53: FATAL is settled, and no command is executed as in READY. -/
theorem firstFatalCauseIsKept : Obligations.FirstFatalCauseIsKept := by
  intro s t hf hstep hrst hcut
  rcases status_step_without_rst hstep (by simp [hf]) hrst hcut with ⟨hst, -⟩ | ⟨c, rest, i, -, hr, -⟩
  · exact hst
  · exact absurd (hf.symm.trans hr) (by simp)

/-! ## LOG_SHORT -/

/-- The reset sequence clears LOG_SHORT, whichever way its checks end (70_reset_and_hazards R162). -/
@[simp] theorem resetSequence_logShort (s : State) : s.resetSequence.status.logShort = false := by
  rw [State.resetSequence]
  rcases construct_cases s.enterConstructed with ⟨-, -, -, -, e⟩ | ⟨cause, idx, -, e⟩ <;> rw [e] <;> rfl

@[simp] theorem cutByReset_logShort (s : State) (c : Command) : (s.cutByReset c).status.logShort = false :=
  resetSequence_logShort _

/-- Of the commands executed in READY a PARSE of a short frame alone writes LOG_SHORT (42_codec R125). -/
theorem readyEffect_logShort_iff (i : Instr) (s : State) :
    (readyEffect i s).status.logShort = true ↔
      s.status.logShort = true ∨ ∃ flen frame, i = .parse flen frame ∧ flen.toNat < s.cfg.dlen.toNat := by
  by_cases hshort : ∃ flen frame, i = .parse flen frame ∧ flen.toNat < s.cfg.dlen.toNat
  · refine iff_of_true ?_ (.inr hshort)
    obtain ⟨flen, frame, rfl, hlt⟩ := hshort
    rw [readyEffect, parseReady, if_pos hlt]
    rfl
  · obtain ⟨-, -, -, hst, -⟩ := readyEffect_cases i s
    rcases hst with ⟨e, -⟩ | ⟨flen, frame, hi, hlt, -⟩ | ⟨cause, -, -, e⟩
    · rw [or_iff_left hshort, e]
    · exact absurd ⟨flen, frame, hi, hlt⟩ hshort
    · rw [or_iff_left hshort, e]
      rfl

/-- LOG_SHORT after a step that takes no `rst` (10_state R27). -/
theorem logShort_step_iff {s t : State} (hstep : step s = .next t) (hp : s.status.phase ≠ .constructed)
    (hrst : ¬ ∃ rest, s.port = .rst :: rest) (hcut : ¬ ∃ c rest, s.port = .rstDuring c :: rest) :
    t.status.logShort = true ↔ s.status.logShort = true ∨
      ∃ c rest flen frame, s.port = .command c :: rest ∧ s.Ready ∧ decode c = .ok (.parse flen frame) ∧
        flen.toNat < s.cfg.dlen.toNat := by
  rcases status_step_without_rst hstep hp hrst hcut with ⟨hst, hnone⟩ | ⟨c, rest, i, hport, hr, hd, rfl⟩
  · rw [hst, or_iff_left]
    rintro ⟨c, rest, flen, frame, hport, hr, hd, -⟩
    exact hnone c rest _ hport hr hd
  · rw [readyEffect_logShort_iff]
    simp [State.Ready, hport, hr, hd]

/-- The state with another value of LOG_SHORT. -/
def State.withLogShort (s : State) (b : Bool) : State := { s with status := { s.status with logShort := b } }

@[simp] theorem State.withLogShort_cfg (s : State) (b : Bool) : (s.withLogShort b).cfg = s.cfg := rfl

/-- In READY no command but RDSTATUS looks at LOG_SHORT: a PARSE of a short frame sets it unseen, any other command
keeps it. -/
theorem readyEffect_withLogShort {i : Instr} (hi : i ≠ .rdstatus) (s : State) (b : Bool) :
    ∃ b', readyEffect i (s.withLogShort b) = (readyEffect i s).withLogShort b' := by
  cases i with
  | rdstatus => exact absurd rfl hi
  | parse flen frame =>
    by_cases hlt : flen.toNat < s.cfg.dlen.toNat
    · exact ⟨true, by simp only [readyEffect, parseReady, State.withLogShort_cfg, hlt, if_true]; rfl⟩
    · exact ⟨b, by simp only [readyEffect, parseReady, State.withLogShort_cfg, hlt, if_false]; rfl⟩
  | extract flen start len order signed frame =>
    refine ⟨b, ?_⟩
    simp only [readyEffect, extractReady]
    split
    · rfl
    · split <;> rfl
  | insert flen start len order value frame =>
    refine ⟨b, ?_⟩
    simp only [readyEffect, insertReady]
    split
    · rfl
    · split <;> rfl
  | encode eng scale offset len signed min max =>
    refine ⟨b, ?_⟩
    simp only [readyEffect, encodeReady, encodeResult, State.withLogShort_cfg]
    split <;> rfl
  | stage idx eng =>
    refine ⟨b, ?_⟩
    cases hw : s.cfg.writable idx.toNat
    · simp only [readyEffect, stageReady, State.withLogShort_cfg, hw, Bool.false_eq_true, if_false]; rfl
    · simp only [readyEffect, stageReady, State.withLogShort_cfg, hw, if_true]; rfl
  | decode | update | reset | getid | getperiod | rdstate => exact ⟨b, rfl⟩

/-- Settles O52: the steps by whether they take `rst`; the commands by the phase. -/
theorem logShortIsSticky : Obligations.LogShortIsSticky := by
  refine ⟨fun s t hstep hp => ⟨?_, logShort_step_iff hstep hp⟩, ?_, fun _ => rfl⟩
  · rintro (⟨rest, hport⟩ | ⟨c, rest, hport⟩)
    · rw [step_rst hport] at hstep
      rw [← Host.Outcome.next.inj hstep, resetSequence_logShort]
    · rw [step_cut hport hp] at hstep
      rw [← Host.Outcome.next.inj hstep, cutByReset_logShort]
  · intro s t i b hi hexec
    rcases exec_next hexec with ⟨hr, rfl⟩ | ⟨hf, -, rfl⟩ | ⟨-, hi', -⟩
    · obtain ⟨b', hb⟩ := readyEffect_withLogShort hi s b
      exact ⟨b', (exec_ready (s := s.withLogShort b) hr i).trans (congrArg _ hb)⟩
    · exact ⟨b, exec_fatal (s := s.withLogShort b) hf hi⟩
    · exact absurd hi' hi

/-! ## The tail of CS -/

/-- No descriptor of a valid configuration reaches a byte at or above DLEN (10_state R19, 40_bitfield R82). -/
theorem not_covers_tail {c : CodecConfig} (h : c.Valid) {p : Nat × Nat} (hp : c.dlen.toNat ≤ p.1) : ¬ c.Covers p := by
  rintro ⟨d, hd, -, hmem⟩
  obtain ⟨-, hbound, -⟩ := valid_desc h hd
  obtain ⟨i, hi, rfl⟩ := mem_bitSet.1 hmem
  exact absurd (fieldBit_fst_lt hi hbound) (Nat.not_lt.2 hp)

/-- Settles O56: a bit of the tail is covered by no descriptor, and what is not covered holds DEF_BYTES. -/
theorem codecStateTailHoldsTheDefaults : Obligations.CodecStateTailHoldsTheDefaults := by
  intro s b hinv hr hdlen hb
  apply BitVec.eq_of_getLsbD_eq
  intro j hj
  rw [getLsbD_frameByte, getLsbD_frameByte,
    hinv.csUncovered hr (b, j) hb hj (not_covers_tail (hinv.readyValid hr) hdlen)]

/-! ## Boolean signals -/

/-- The raw integer of an unsigned field of one bit. -/
theorem rawInt_extractField_one (F : Frame) (start : Nat) (order : ByteOrder) :
    rawInt (extractField F start 1 order false) false =
      if frameBit F (fieldBit order start 1 0) then 1 else 0 := by
  rw [extractField_unsigned, fieldSum, fieldSum]
  cases frameBit F (fieldBit order start 1 0) <;> rfl

/-- Settles O57: the exact value fits W_ENG bits, and its raw integer is the bit. -/
theorem booleanSignalIsZeroOrOne : Obligations.BooleanSignalIsZeroOrOne := by
  intro p d F hW hscale hlen hsigned hone hoff
  have hzero : sint p.wCoef d.offset = d.offset := by simp [hoff, sint]
  rw [decodeSignal, sint_decodeValue hW _ _ hscale hzero, decodeValue, hlen, hsigned, rawInt_extractField_one, hone,
    hoff]
  split <;> simp

/-! ## The STATUS word

The two equations give the word the width of its fields' sum, in which the library's lemmas about `++` apply. -/

theorem Status.word_getLsbD (st : Status) (q : Nat) : st.word.getLsbD q =
    (st.fidx ++ st.fcause.code ++ 0#1 ++ BitVec.ofBool st.logShort ++ st.phase.code).getLsbD q := rfl

theorem Status.word_extractLsb' (st : Status) (start len : Nat) : st.word.extractLsb' start len =
    (st.fidx ++ st.fcause.code ++ 0#1 ++ BitVec.ofBool st.logShort ++ st.phase.code).extractLsb' start len := rfl

theorem Status.word_phase (st : Status) : st.word.extractLsb' 0 2 = st.phase.code :=
  BitVec.extractLsb'_append_eq_right

theorem Status.word_logShort (st : Status) : st.word.getLsbD 2 = st.logShort := by
  simp only [word_getLsbD, BitVec.getLsbD_append]
  simp

theorem Status.word_reserved (st : Status) : st.word.getLsbD 3 = false := by
  simp only [word_getLsbD, BitVec.getLsbD_append]
  simp

theorem Status.word_fcause (st : Status) : st.word.extractLsb' 4 4 = st.fcause.code := by
  rw [word_extractLsb', BitVec.extractLsb'_append_eq_of_le (by decide), BitVec.extractLsb'_append_eq_of_le (by decide),
    BitVec.extractLsb'_append_eq_of_le (by decide)]
  exact BitVec.extractLsb'_append_eq_right

theorem Status.word_fidx (st : Status) : st.word.extractLsb' 8 8 = st.fidx := by
  rw [word_extractLsb', BitVec.extractLsb'_append_eq_of_le (by decide), BitVec.extractLsb'_append_eq_of_le (by decide),
    BitVec.extractLsb'_append_eq_of_le (by decide)]
  exact BitVec.extractLsb'_append_eq_left

/-- Settles O38: the fields of the word by position, then the codes of PHASE and FCAUSE value by value. -/
theorem statusWordLayout : Obligations.StatusWordLayout := by
  intro st
  rw [st.word_phase, st.word_fcause]
  refine ⟨?_, st.word_logShort, st.word_reserved, ?_, st.word_fidx⟩
  · cases st.phase <;> rfl
  · cases st.fcause <;> rfl

/-! ## The reset state -/

/-- Settles O48: the reset state is what its own reset sequence leaves, and a reset sequence ends in the invariant. -/
theorem resetStateMeetsTheInvariant : Obligations.ResetStateMeetsTheInvariant := by
  obtain ⟨-, -, hfits, -, hreset, -⟩ := resetStateIsTheConstructedExample
  have hinv : State.reset.resetSequence.Inv := inv_resetSequence hfits (cdOk_nil _)
  rwa [hreset] at hinv

end Sys2Proof.Machine
end

section
/-! PROOFS. Fields of a frame and the order of commands (spec/20_memory.md): the bit set of a field, the closed forms of
reading and writing it, the two byte orders, and the independence of PARSE from the transmit side. -/

namespace Sys2Proof.Machine

/-! ## The bit set of a field -/

theorem nodup_bitSet (order : ByteOrder) (start len : Nat) : (bitSet order start len).Nodup :=
  List.nodup_range.map_on fun _ hi _ hj h => fieldBit_inj (List.mem_range.1 hi) (List.mem_range.1 hj) h

@[simp] theorem length_bitSet (order : ByteOrder) (start len : Nat) : (bitSet order start len).length = len := by
  simp [bitSet]

theorem mem_bitSet_inside {order : ByteOrder} {start len n : Nat} (h : start + len ≤ 8 * n) {p : Nat × Nat}
    (hp : p ∈ bitSet order start len) : p.1 < n ∧ p.2 < 8 := by
  obtain ⟨i, hi, rfl⟩ := mem_bitSet.1 hp
  exact ⟨fieldBit_fst_lt hi h, fieldBit_snd_lt ..⟩

theorem overlaps_iff (d e : Desc) : d.overlaps e = true ↔ ∃ p, p ∈ d.bits ∧ p ∈ e.bits := by
  simp only [Desc.overlaps, List.any_eq_true, List.contains_iff_mem]

/-- Settles O9: the set is the image of `0` to `len - 1` under an injection. -/
theorem fieldBitsAreDistinctAndInside : Obligations.FieldBitsAreDistinctAndInside :=
  ⟨fun order start len => ⟨nodup_bitSet order start len, length_bitSet order start len,
      fun _ h _ hp => mem_bitSet_inside h hp⟩,
    fun _ _ _ => ⟨mem_bitSet_intel, mem_bitSet_motorola⟩, overlaps_iff⟩

/-! ## The closed form of writing -/

/-- The field just written holds the low `len` bits of the value. -/
theorem fieldSum_insertField (F : Frame) {start len : Nat} (order : ByteOrder) (v : Raw) (h : start + len ≤ 64) :
    fieldSum (insertField F start len order v) order start len len = v.toNat % 2 ^ len := by
  apply Nat.eq_of_testBit_eq
  intro i
  rw [testBit_fieldSum, Nat.testBit_mod_two_pow, BitVec.testBit_toNat]
  by_cases hi : i < len
  · rw [frameBit_insertField_field F order v hi h]
  · simp [hi]

/-- Writing an Intel field replaces its window of LEword (20_memory R46). -/
theorem leWord_insertField (F : Frame) {n start len : Nat} (v : Raw) (hn : n ≤ 8) (h : start + len ≤ 8 * n) :
    leWord (insertField F start len .intel v) n + (leWord F n / 2 ^ start % 2 ^ len) * 2 ^ start =
      leWord F n + (v.toNat % 2 ^ len) * 2 ^ start := by
  rw [← fieldSum_insertField F .intel v (by omega : start + len ≤ 64), fieldSum_intel _ h]
  apply add_window_eq
  intro q hq
  rw [testBit_leWord, testBit_leWord, frameBit_insertField_other _ _ _ _ _ (Nat.mod_lt q (by decide))]
  rw [mem_bitSet_intel]
  rintro ⟨g, h1, h2, hg⟩
  rw [Prod.mk.injEq] at hg
  omega

/-- Writing a Motorola field replaces its window of BEword (20_memory R46). -/
theorem beWord_insertField (F : Frame) {n start len : Nat} (v : Raw) (hn : n ≤ 8) (h : start + len ≤ 8 * n) :
    beWord (insertField F start len .motorola v) n +
        (beWord F n / 2 ^ (8 * n - start - len) % 2 ^ len) * 2 ^ (8 * n - start - len) =
      beWord F n + (v.toNat % 2 ^ len) * 2 ^ (8 * n - start - len) := by
  rw [← fieldSum_insertField F .motorola v (by omega : start + len ≤ 64), fieldSum_motorola _ h]
  apply add_window_eq
  intro q hq
  rw [testBit_beWord, testBit_beWord]
  by_cases hqn : q < 8 * n
  · rw [frameBit_insertField_other _ _ _ _ _ (Nat.mod_lt q (by decide))]
    rw [mem_bitSet_motorola]
    rintro ⟨g, h1, h2, hg⟩
    rw [Prod.mk.injEq] at hg
    omega
  · simp [hqn]

/-- Settles O10: reading by the field sum; writing changes no bit outside the window and puts the value into it. -/
theorem fieldClosedForms : Obligations.FieldClosedForms := by
  intro F n start len v hn _ hb
  exact ⟨fieldSum_intel F hb, fieldSum_motorola F hb, leWord_insertField F v hn hb, beWord_insertField F v hn hb⟩

/-! ## The two byte orders -/

/-- A byte of an unsigned extraction, when its eight bits are those of byte `c` of the frame. -/
theorem extractField_byte (F : Frame) {start len b c : Nat} {order : ByteOrder} (hlen : len ≤ 64)
    (hb : 8 * b + 8 ≤ len) (h : ∀ j, j < 8 → fieldBit order start len (8 * b + j) = (c, j)) :
    (extractField F start len order false).extractLsb' (8 * b) 8 = frameByte F c := by
  apply BitVec.eq_of_getLsbD_eq
  intro j hj
  rw [BitVec.getLsbD_extractLsb', getLsbD_extractField_unsigned F order hlen, h j hj, getLsbD_frameByte]
  simp [hj, show 8 * b + j < len by omega]

/-- Intel byte `b` of a byte-aligned field, counted from its least significant end. -/
theorem fieldBit_aligned_intel (a m b : Nat) {j : Nat} (hj : j < 8) :
    fieldBit .intel (8 * a) (8 * m) (8 * b + j) = (a + b, j) := by
  simp only [fieldBit, Prod.mk.injEq]
  omega

/-- Motorola byte `b` of a byte-aligned field, counted from its least significant end. -/
theorem fieldBit_aligned_motorola (a : Nat) {m b j : Nat} (hb : b < m) (hj : j < 8) :
    fieldBit .motorola (8 * a) (8 * m) (8 * b + j) = (a + (m - 1 - b), j) := by
  simp only [fieldBit, Prod.mk.injEq]
  omega

/-- Settles O12: the place of each bit by FieldBit. -/
theorem byteOrdersMirrorEachOther : Obligations.ByteOrdersMirrorEachOther := by
  constructor
  · intro g
    simp only [fieldBit, Prod.mk.injEq]
    omega
  · intro F a m b ham hbm
    exact ⟨extractField_byte F (by omega) (by omega) fun j hj => fieldBit_aligned_intel a m b hj,
      extractField_byte F (by omega) (by omega) fun j hj => fieldBit_aligned_motorola a hbm hj⟩

/-- EXTRACT in READY with a field inside the bound (40_bitfield R84). -/
theorem exec_extract_inside {s : State} (hr : s.Ready) {flen : BitVec 4} {start len : BitVec 8} (order : ByteOrder)
    (signed : Bool) (frame : Frame) (hf : flen.toNat ≤ 8) (h1 : 1 ≤ len.toNat)
    (hb : start.toNat + len.toNat ≤ 8 * flen.toNat) :
    exec (.extract flen start len order signed frame) s =
      .next (s.respond (Response.okData (extractField frame start.toNat len.toNat order signed).toNat)) := by
  rw [exec_ready hr, readyEffect, extractReady, if_neg (by omega), checkField_none.2 ⟨h1, hb⟩]

/-- The field of the worked example holds 0x1234 as soon as the sum of its bits does. -/
theorem exec_extract_example {s : State} (hr : s.Ready) {order : ByteOrder} {F : Frame}
    (h : fieldSum F order 0 16 16 = 0x1234) :
    exec (.extract 2 0 16 order false F) s = .next { s with rsp := some ⟨.ok, 0x1234, 0, 0⟩, cdPulses := [] } := by
  have hv : extractField F 0 16 order false = 0x1234 := by rw [extractField_unsigned, h]; rfl
  rw [exec_extract_inside hr order false F (by decide) (by decide) (by decide)]
  exact congrArg (fun v : Raw => Host.Outcome.next (s.respond (Response.okData v.toNat))) hv

/-- Settles O11: the sum is LEword, or BEword, of the two bytes. -/
theorem workedByteOrderExample : Obligations.WorkedByteOrderExample := by
  intro s F hr
  constructor
  · intro h0 h1
    apply exec_extract_example hr
    rw [fieldSum_intel F (n := 2) (by decide)]
    simp [leWord, h0, h1]
  · intro h0 h1
    apply exec_extract_example hr
    rw [fieldSum_motorola F (n := 2) (by decide)]
    simp [beWord, h0, h1]

end Sys2Proof.Machine

/-! ## PARSE and the transmit side -/

namespace Sys2Proof

/-- The commands of the transmit side (20_memory R52). -/
abbrev Instr.Transmits (i : Instr) : Prop :=
  i.mnemonic = .update ∨ i.mnemonic = .reset ∨ i.mnemonic = .stage ∨ i.mnemonic = .rdstate

theorem Instr.transmits_cases {i : Instr} (h : i.Transmits) :
    i = .update ∨ i = .reset ∨ (∃ idx eng, i = .stage idx eng) ∨ i = .rdstate := by
  cases i with
  | update => exact .inl rfl
  | reset => exact .inr (.inl rfl)
  | stage idx eng => exact .inr (.inr (.inl ⟨idx, eng, rfl⟩))
  | rdstate => exact .inr (.inr (.inr rfl))
  | _ => simp [Instr.Transmits, Instr.mnemonic] at h

end Sys2Proof

namespace Sys2Proof.Machine

/-- The state with other registers of the transmit side. -/
def State.withCodec (s : State) (cs : Frame) (cmd : RegFile) : State := { s with cs := cs, cmd := cmd }

/-- The state with another CD. -/
def State.withCd (s : State) (cd : RegFile) : State := { s with cd := cd }

@[simp] theorem State.withCodec_cfg (s : State) (cs : Frame) (cmd : RegFile) : (s.withCodec cs cmd).cfg = s.cfg := rfl
@[simp] theorem State.withCd_cfg (s : State) (cd : RegFile) : (s.withCd cd).cfg = s.cfg := rfl

/-- No command looks at the outputs of the step before it. -/
theorem exec_quiet (i : Instr) (s : State) : exec i s.quiet = exec i s := by
  cases i <;> rfl

theorem exec_eq_of_quiet {s t : State} (h : s.quiet = t.quiet) (i : Instr) : exec i s = exec i t := by
  rw [← exec_quiet, h, exec_quiet]

/-- PARSE neither looks at CS and CMD nor writes them. -/
theorem exec_parse_withCodec {s t : State} {flen : BitVec 4} {frame : Frame} (h : exec (.parse flen frame) s = .next t)
    (cs : Frame) (cmd : RegFile) : exec (.parse flen frame) (s.withCodec cs cmd) = .next (t.withCodec cs cmd) := by
  rcases exec_next h with ⟨hr, rfl⟩ | ⟨hf, hi, rfl⟩ | ⟨-, hi, -⟩
  · rw [exec_ready (s := s.withCodec cs cmd) hr, readyEffect, readyEffect, parseReady, parseReady, State.withCodec_cfg]
    split <;> rfl
  · exact exec_fatal (s := s.withCodec cs cmd) hf hi
  · cases hi

/-- PARSE writes CD, LOG_SHORT and its outputs alone. -/
theorem exec_parse_frame {s t : State} {flen : BitVec 4} {frame : Frame} (h : exec (.parse flen frame) s = .next t) :
    t = { s with cd := t.cd, status := { s.status with logShort := t.status.logShort },
                 rsp := t.rsp, cdPulses := t.cdPulses } := by
  rcases exec_next h with ⟨-, rfl⟩ | ⟨-, -, rfl⟩ | ⟨-, hi, -⟩
  · rw [readyEffect]
    rcases parseReady_cases flen frame s with ⟨-, e⟩ | ⟨-, e⟩ <;> rw [e] <;> rfl
  · rfl
  · cases hi

/-- In READY the transmit side neither looks at CD and LOG_SHORT nor writes them. -/
theorem readyEffect_transmit {i : Instr} (hi : i.Transmits) (s : State) (cd : RegFile) (b : Bool) :
    readyEffect i ((s.withCd cd).withLogShort b) = ((readyEffect i s).withCd cd).withLogShort b := by
  rcases Instr.transmits_cases hi with rfl | rfl | ⟨idx, eng, rfl⟩ | rfl
  · rfl
  · rfl
  · rw [readyEffect, readyEffect, stageReady, stageReady, State.withLogShort_cfg, State.withCd_cfg]
    split <;> rfl
  · rfl

/-- In READY the transmit side writes CS, CMD and its outputs alone. -/
theorem readyEffect_transmit_frame {i : Instr} (hi : i.Transmits) (s : State) :
    readyEffect i s = { s with cs := (readyEffect i s).cs, cmd := (readyEffect i s).cmd,
                               rsp := (readyEffect i s).rsp, cdPulses := (readyEffect i s).cdPulses } := by
  rcases Instr.transmits_cases hi with rfl | rfl | ⟨idx, eng, rfl⟩ | rfl
  · rfl
  · rfl
  · rw [readyEffect]
    rcases stageReady_cases idx eng s with ⟨-, e⟩ | ⟨-, e⟩ <;> rw [e] <;> rfl
  · rfl

/-- The transmit side does not depend on CD and LOG_SHORT, in READY or in FATAL. -/
theorem exec_transmit {s t : State} {i : Instr} (hi : i.Transmits) (h : exec i s = .next t) (cd : RegFile) (b : Bool) :
    exec i ((s.withCd cd).withLogShort b) = .next ((t.withCd cd).withLogShort b) := by
  rcases exec_next h with ⟨hr, rfl⟩ | ⟨hf, hne, rfl⟩ | ⟨-, rfl, -⟩
  · rw [← readyEffect_transmit hi]
    exact exec_ready (s := (s.withCd cd).withLogShort b) hr i
  · exact exec_fatal (s := (s.withCd cd).withLogShort b) hf hne
  · exact absurd hi (by decide)

/-- The transmit side writes CS, CMD and its outputs alone, in READY or in FATAL. -/
theorem exec_transmit_frame {s t : State} {i : Instr} (hi : i.Transmits) (h : exec i s = .next t) :
    t = { s with cs := t.cs, cmd := t.cmd, rsp := t.rsp, cdPulses := t.cdPulses } := by
  rcases exec_next h with ⟨-, rfl⟩ | ⟨-, -, rfl⟩ | ⟨-, rfl, -⟩
  · exact readyEffect_transmit_frame hi s
  · rfl
  · exact absurd hi (by decide)

/-- A command of the transmit side after a PARSE: what it leaves without the PARSE, but for the writes of the PARSE. -/
theorem exec_transmit_after_parse {s a a' : State} {i : Instr} {flen : BitVec 4} {frame : Frame} (hi : i.Transmits)
    (ha : exec (.parse flen frame) s = .next a) (ha' : exec i s = .next a') :
    exec i a = .next ((a'.withCd a.cd).withLogShort a.status.logShort) := by
  have hq : a.quiet = ((s.withCd a.cd).withLogShort a.status.logShort).quiet :=
    (congrArg State.quiet (exec_parse_frame ha) :)
  rw [exec_eq_of_quiet hq, exec_transmit hi ha']

/-- A PARSE after a command of the transmit side: what it leaves without that command, but for that command's writes. -/
theorem exec_parse_after_transmit {s a a' : State} {i : Instr} {flen : BitVec 4} {frame : Frame} (hi : i.Transmits)
    (ha : exec (.parse flen frame) s = .next a) (ha' : exec i s = .next a') :
    exec (.parse flen frame) a' = .next (a.withCodec a'.cs a'.cmd) := by
  have hq : a'.quiet = (s.withCodec a'.cs a'.cmd).quiet := (congrArg State.quiet (exec_transmit_frame hi ha') :)
  rw [exec_eq_of_quiet hq, exec_parse_withCodec ha]

/-- Settles O54: each side's reads and writes, then the two orders from them. -/
theorem parseAndCodecStateAreIndependent : Obligations.ParseAndCodecStateAreIndependent := by
  refine ⟨fun s t flen frame cs cmd b h => ⟨?_, exec_parse_frame h⟩,
    fun s t i cd b hi h => ⟨exec_transmit hi h cd b, exec_transmit_frame hi h⟩, ?_⟩
  · obtain ⟨-, hlog, -⟩ := logShortIsSticky
    obtain ⟨b', hb⟩ := hlog s t (.parse flen frame) b (by simp) h
    exact ⟨b', exec_parse_withCodec hb cs cmd⟩
  · intro s a b a' b' i flen frame hi ha hb ha' hb'
    obtain rfl := Host.Outcome.next.inj (hb.symm.trans (exec_transmit_after_parse hi ha ha'))
    obtain rfl := Host.Outcome.next.inj (hb'.symm.trans (exec_parse_after_transmit hi ha ha'))
    have hst : a'.status = s.status := (congrArg State.status (exec_transmit_frame hi ha') :)
    have hsta : a.status = { s.status with logShort := a.status.logShort } :=
      (congrArg State.status (exec_parse_frame ha) :)
    rw [← hst] at hsta
    exact ⟨rfl, rfl, hsta.symm, rfl, rfl, rfl⟩

end Sys2Proof.Machine
end

section
/-! PROOFS. The encoding of commands (spec/30_encoding.md): the encoder and the decoder undo each other, the opcode map
and its reserved headers, the decode procedure, which bits of a record a command looks at, and the responses. -/

namespace Sys2Proof

/-! ## Control words under a mask -/

/-- Two words that agree under a mask agree in every field the mask keeps. -/
theorem extractLsb'_of_masked {w w' m : CtlWord} (h : w &&& m = w' &&& m) {a n : Nat}
    (hm : m.extractLsb' a n = BitVec.allOnes n) : w.extractLsb' a n = w'.extractLsb' a n := by
  have := congrArg (BitVec.extractLsb' a n) h
  simpa only [BitVec.extractLsb'_and, hm, BitVec.and_allOnes] using this

/-- A control word with its reserved bits zero is what the encoder writes for its four fields (30_encoding R63). -/
theorem encodeDesc_ctl {w : CtlWord} (h : descReserved w = 0) :
    encodeDesc (ctlStart w) (ctlLen w) (ctlOrder w) (ctlSigned w) = w := by
  apply BitVec.eq_of_getLsbD_eq
  intro q hq
  rw [getLsbD_encodeDesc]
  split
  · next h8 => simp [ctlStart, h8]
  split
  · next h8 h16 => simp [ctlLen, show q - 8 < 8 by omega, show 8 + (q - 8) = q by omega]
  split
  · next h16 =>
    rw [h16, ctlOrder]
    cases w.getLsbD 16 <;> rfl
  split
  · next h17 => rw [h17, ctlSigned]
  · have hz := congrArg (BitVec.getLsbD · (q - 18)) h
    simpa [descReserved, show q - 18 < 14 by omega, show 18 + (q - 18) = q by omega] using hz.symm

/-- The word the encoder writes for the fields that a mask leaves is the masked word. -/
theorem encodeDesc_eq_and {w m : CtlWord} {start len : BitVec 8} {order : ByteOrder} {signed : Bool}
    (h : descReserved w = 0) (hstart : ctlStart w &&& ctlStart m = start) (hlen : ctlLen w &&& ctlLen m = len)
    (horder : (if m.getLsbD 16 then ctlOrder w else .intel) = order) (hsigned : (ctlSigned w && ctlSigned m) = signed) :
    encodeDesc start len order signed = w &&& m := by
  have hres : descReserved (w &&& m) = 0 := by
    rw [descReserved, BitVec.extractLsb'_and, ← descReserved, h]
    exact BitVec.zero_and
  have hord : ctlOrder (w &&& m) = order := by
    rw [← horder, ctlOrder, BitVec.getLsbD_and, ctlOrder]
    cases m.getLsbD 16 <;> simp
  have hstart' : ctlStart (w &&& m) = start := BitVec.extractLsb'_and.trans hstart
  have hlen' : ctlLen (w &&& m) = len := BitVec.extractLsb'_and.trans hlen
  have hsigned' : ctlSigned (w &&& m) = signed := BitVec.getLsbD_and.trans hsigned
  rw [← encodeDesc_ctl hres, hstart', hlen', hord, hsigned']

/-! ## decode after encode -/

@[simp] theorem hdrFlen_encodeHeader (m : Mnemonic) (flen : BitVec 4) (idx : BitVec 8) :
    hdrFlen (encodeHeader m flen idx) = flen := by
  have h : hdrFlen (encodeHeader m flen idx) = (m.opc ++ flen ++ idx).extractLsb' 8 4 := rfl
  rw [h, BitVec.extractLsb'_append_eq_of_le (by decide)]
  exact BitVec.extractLsb'_append_eq_right

@[simp] theorem hdrIdx_encodeHeader (m : Mnemonic) (flen : BitVec 4) (idx : BitVec 8) :
    hdrIdx (encodeHeader m flen idx) = idx :=
  BitVec.extractLsb'_append_eq_right

open Laws.EncodeHeader in
/-- The header of an encoded command selects the command's row and holds its FLEN (30_encoding R59, R60). -/
theorem encode_header (i : Instr) : Statement i := by
  cases i with
  | extract => exact extract ..
  | insert => exact insert ..
  | decode => exact Laws.EncodeHeader.decode ..
  | encode => exact Laws.EncodeHeader.encode ..
  | parse => exact parse ..
  | update => exact update
  | reset => exact reset
  | getid => exact getid
  | getperiod => exact getperiod
  | stage => exact stage ..
  | rdstate => exact rdstate
  | rdstatus => exact rdstatus

/-- The encoder leaves the reserved bits of every control word zero (30_encoding R64). -/
theorem descReserved_encode (i : Instr) : descReserved (encode i).desc = 0 := by
  cases i with
  | extract | insert | decode | encode => exact descReserved_encodeDesc ..
  | _ => exact (rfl : descReserved 0 = 0)

/-- A well-formed command's frame size passes step 4 of the decode procedure (30_encoding R69). -/
theorem flen_encode_le {i : Instr} (h : i.WellFormed) (hf : i.mnemonic.hasFrameSize = true) :
    (hdrFlen (encode i).hdr).toNat ≤ 8 := by
  rw [(encode_header i).2]
  cases i with
  | extract | insert => exact of_decide_eq_true h
  | _ => cases hf

/-- The decoder reads back every operand the encoder wrote (30_encoding R61, R65). -/
theorem operandsOf_encode (i : Instr) : operandsOf i.mnemonic (encode i) = i := by
  cases i with
  | extract | insert | decode | encode | parse | stage => simp [operandsOf, Instr.mnemonic, encode, Command.bare]
  | _ => rfl

/-- Settles O3: the record passes every step of the decode procedure, and each operand reads back. -/
theorem decodeOfEncodeIsTheCommand : Obligations.DecodeOfEncodeIsTheCommand := fun i h =>
  decode_ok.2 ⟨i.mnemonic, (encode_header i).1, flen_encode_le h, fun _ => descReserved_encode i,
    (operandsOf_encode i).symm⟩

/-! ## encode after decode -/

/-- A command decoded from a selected header encodes to that header (30_encoding R60). -/
theorem encode_operandsOf_hdr {m : Mnemonic} {c : Command} (hm : selectRow c.hdr = some m) :
    (encode (operandsOf m c)).hdr = c.hdr := by
  obtain ⟨-, hflen, hidx⟩ := header_fields hm
  have hrow := encodeHeader_of_row hm
  cases m with
  | extract | insert | parse =>
    rw [hidx.resolve_left (by decide)] at hrow
    exact hrow
  | stage =>
    rw [show hdrFlen c.hdr = 0 by simpa using hflen] at hrow
    exact hrow
  | _ =>
    rw [show hdrFlen c.hdr = 0 by simpa using hflen, hidx.resolve_left (by decide)] at hrow
    exact hrow

/-- A 64-bit pattern carried on a wider port keeps its low 64 bits (30_encoding R61). -/
theorem ofInt_toNat_ofInt (z : Int) : BitVec.ofInt 64 ((BitVec.ofInt 64 z).toNat : Int) = BitVec.ofInt 64 z := by
  rw [BitVec.ofInt_natCast, BitVec.ofNat_toNat, BitVec.setWidth_eq]

/-- Settles O4: the header by the selected row; the control word field by field under the mask of what the command
examines; every other operand as it was taken from the record. -/
theorem decodedCommandKeepsEveryExaminedBit : Obligations.DecodedCommandKeepsEveryExaminedBit := by
  intro c i hd
  refine ⟨Machine.wf_of_decode hd, ?_⟩
  obtain ⟨m, hm, -, hres, rfl⟩ := decode_ok.1 hd
  refine ⟨encode_operandsOf_hdr hm, ?_⟩
  cases m with
  | extract => exact ⟨encodeDesc_ctl (hres rfl), rfl⟩
  | insert =>
    have hdesc := encodeDesc_eq_and (m := 0xFFFDFFFF) (hres rfl) BitVec.and_allOnes BitVec.and_allOnes rfl
      (Bool.and_false _)
    exact ⟨hdesc, ofInt_toNat_ofInt _, rfl⟩
  | decode =>
    have hdesc := encodeDesc_eq_and (m := 0xFFFE0000) (hres rfl) BitVec.and_zero BitVec.and_zero rfl (Bool.and_true _)
    exact ⟨hdesc, ofInt_toNat_ofInt _, rfl, rfl⟩
  | encode =>
    have hdesc := encodeDesc_eq_and (m := 0xFFFEFF00) (hres rfl) BitVec.and_zero BitVec.and_allOnes rfl
      (Bool.and_true _)
    exact ⟨hdesc, rfl, rfl, rfl, rfl, rfl⟩
  | parse | stage => rfl
  | _ => trivial

/-! ## The opcode map -/

/-- A row's mnemonic is selected by exactly the headers that match the row (30_encoding R60). -/
theorem selectRow_row {h : Header} {r : OpRow} (hr : r ∈ opcodeTable) :
    selectRow h = some r.mnemonic ↔ h &&& r.mask = r.pattern := by
  refine ⟨fun hm => ?_, selectRow_of_match hr⟩
  obtain ⟨r', hr', hmn, hmatch⟩ := selectRow_some hm
  rwa [← opcodeTable_mnemonic r' hr' r hr hmn]

/-- Settles O2: each mnemonic has one row of the table. -/
theorem opcodeMapSelectsByMaskAndMatch : Obligations.OpcodeMapSelectsByMaskAndMatch := by
  intro h m
  cases m <;> exact selectRow_row (r := ⟨_, _, _⟩) (by decide)

/-- Settles O1: the words of R74, evaluated. -/
theorem headerWordsOfTheTwelveCommands : Obligations.HeaderWordsOfTheTwelveCommands := by
  refine ⟨?_, ?_, ?_⟩ <;> decide

/-! ## Reserved headers -/

/-- FLEN and IDX are the low twelve bits of the header (30_encoding R59). -/
theorem extractLsb'_flen_idx (h : Header) : h.extractLsb' 0 12 = hdrFlen h ++ hdrIdx h := by
  apply BitVec.eq_of_getLsbD_eq
  intro q hq
  rw [BitVec.getLsbD_append, hdrFlen, hdrIdx, BitVec.getLsbD_extractLsb', BitVec.getLsbD_extractLsb',
    BitVec.getLsbD_extractLsb']
  by_cases h8 : q < 8
  · simp [hq, h8]
  · simp [hq, h8, show q - 8 < 4 by omega, show 8 + (q - 8) = q by omega]

/-- No command has one of the reserved operation codes (30_encoding R70). -/
theorem opc_not_reserved (m : Mnemonic) : ¬ (m.opc = 0x0 ∨ m.opc = 0xD ∨ m.opc = 0xE ∨ m.opc = 0xF) := by
  cases m <;> decide

/-- A header selects no row when no command has its three fields (30_encoding R60). -/
theorem selectRow_none_of_fields {h : Header}
    (hbad : ∀ m : Mnemonic, h.extractLsb' 12 4 = m.opc → (m = .extract ∨ m = .insert ∨ m = .parse ∨ hdrFlen h = 0) →
      (m = .stage ∨ hdrIdx h = 0) → False) : selectRow h = none := by
  rw [Option.eq_none_iff_forall_ne_some]
  intro m hm
  obtain ⟨hopc, hflen, hidx⟩ := header_fields hm
  exact hbad m hopc hflen hidx

/-! ## The decode procedure -/

theorem hasFrameSize_iff {m : Mnemonic} : m.hasFrameSize = true ↔ m = .extract ∨ m = .insert := by
  cases m <;> decide

theorem isPure_iff {m : Mnemonic} : m.isPure = true ↔ m = .extract ∨ m = .insert ∨ m = .decode ∨ m = .encode := by
  cases m <;> decide

end Sys2Proof

namespace Sys2Proof.Machine

theorem runCommand_ok {c : Command} {i : Instr} (h : decode c = .ok i) (s : State) : runCommand c s = exec i s := by
  rw [runCommand, h]

theorem runCommand_error {c : Command} {e : Illegal} (h : decode c = .error e) (s : State) :
    runCommand c s = execIllegal s := by
  rw [runCommand, h]

/-- Step 3 of the decode procedure (30_encoding R69). -/
theorem runCommand_noRow {c : Command} (h : selectRow c.hdr = none) (s : State) : runCommand c s = execIllegal s :=
  runCommand_error (e := .noRow) (by rw [decode, h]) s

/-- Steps 4, 5 and 6 of the decode procedure (30_encoding R69). -/
theorem runCommand_of_row {c : Command} {m : Mnemonic} (h : selectRow c.hdr = some m) (s : State) :
    runCommand c s =
      if (m = .extract ∨ m = .insert) ∧ 8 < (hdrFlen c.hdr).toNat then execIllegal s
      else if (m = .extract ∨ m = .insert ∨ m = .decode ∨ m = .encode) ∧ descReserved c.desc ≠ 0 then execIllegal s
      else exec (operandsOf m c) s := by
  simp only [runCommand, decode, h, Bool.and_eq_true, hasFrameSize_iff, isPure_iff, decide_eq_true_iff, bne_iff_ne]
  split_ifs <;> rfl

/-- Settles O8: a reserved header lacks the fields of every row; a refused record reaches no meaning. -/
theorem reservedEncodingsAreRefused : Obligations.ReservedEncodingsAreRefused := by
  refine ⟨fun h hop => selectRow_none_of_fields fun m hopc _ _ => ?_,
    fun h hop hne => selectRow_none_of_fields fun m hopc _ hidx => ?_,
    fun h hop hne => selectRow_none_of_fields fun m hopc hflen hidx => ?_,
    fun h hop hne => selectRow_none_of_fields fun m hopc hflen _ => ?_, fun s c e rest hport hr hd => ?_⟩
  · rw [hopc] at hop
    exact opc_not_reserved m hop
  · obtain rfl := hidx.resolve_right hne
    rw [hopc] at hop
    exact absurd hop (by decide)
  · rw [hopc] at hop
    rcases hflen with rfl | rfl | rfl | hflen
    iterate 3 exact absurd hop (by decide)
    rcases hidx with rfl | hidx
    · exact absurd hop (by decide)
    · exact hne (by rw [extractLsb'_flen_idx, hflen, hidx]; rfl)
  · rw [hopc] at hop
    rcases hflen with rfl | rfl | rfl | hflen
    iterate 3 exact absurd hop (by decide)
    exact hne hflen
  · rw [step_command hport (by simp [hr]), runCommand_error hd]
    exact execIllegal_ready hr

/-- Settles O6: the port's head is run, and what decodes is executed. -/
theorem stepRunsTheDecodedCommand : Obligations.StepRunsTheDecodedCommand := fun _ _ _ _ hport hp hd =>
  (step_command hport hp).trans (runCommand_ok hd _)

/-- Settles O58: presenting a word puts its command at the head of the port. -/
theorem presentedWordIsExecutedNext : Obligations.PresentedWordIsExecutedNext := by
  intro s nbits w i hp hword
  have hd : decode (Command.ofTableWord nbits w) = .ok i := by
    rw [decodeTableWord] at hword
    cases hc : decode (Command.ofTableWord nbits w) with
    | ok j => rw [hc] at hword; exact congrArg _ (Option.some.inj hword)
    | error e => rw [hc] at hword; cases hword
  exact stepRunsTheDecodedCommand (s.withFetchWord nbits w) _ s.port i rfl hp hd

end Sys2Proof.Machine

/-! ## Responses -/

namespace Sys2Proof

open Sys2Proof.Machine

/-- The responses with ST_OK that a command's row of the response table allows (30_encoding R66). -/
def Instr.OkResponse (i : Instr) (r : Response) : Prop :=
  match i with
  | .extract .. | .encode .. | .decode .. | .getid | .getperiod | .rdstatus => ∃ v, r = .okData v
  | .insert .. | .update | .rdstate => ∃ F n, r = .okFrame F n
  | .parse .. | .reset | .stage .. => r = .bare .ok

/-- The other statuses a command can end with in READY (30_encoding R67, R69). -/
inductive Instr.Refusal (i : Instr) : RspStatus → Prop
  | illegal (h : ¬ i.WellFormed) : i.Refusal .illegal
  | short (h : i.mnemonic = .parse) : i.Refusal .short
  | badIdx (h : i.mnemonic = .stage) : i.Refusal .badIdx
  | fatalNow (h : i.mnemonic = .extract ∨ i.mnemonic = .insert ∨ i.mnemonic = .encode) : i.Refusal .fatalNow

theorem Instr.OkResponse.status {i : Instr} {r : Response} (h : i.OkResponse r) : r.status = .ok := by
  cases i with
  | extract | encode | decode | getid | getperiod | rdstatus => obtain ⟨v, rfl⟩ := h; rfl
  | insert | update | rdstate => obtain ⟨F, n, rfl⟩ := h; rfl
  | parse | reset | stage => obtain rfl := h; rfl

end Sys2Proof

namespace Sys2Proof.Machine

/-- In READY every command is answered: with ST_OK and the payload of its row, or with another status and zero
payload (30_encoding R66). -/
theorem readyEffect_rsp (i : Instr) (s : State) :
    (∃ r, (readyEffect i s).rsp = some r ∧ i.OkResponse r) ∨
      ∃ st, i.Refusal st ∧ (readyEffect i s).rsp = some (Response.bare st) := by
  cases i with
  | extract flen start len order signed frame =>
    simp only [readyEffect]
    rcases extractReady_cases flen start len order signed frame s with
      ⟨hf, h⟩ | ⟨-, -, h⟩ | ⟨-, -, -, h⟩ | ⟨-, -, -, h⟩ <;> rw [h]
    · exact .inr ⟨_, .illegal (by simp [Instr.wellFormed, hf]), rfl⟩
    · exact .inr ⟨_, .fatalNow (.inl rfl), rfl⟩
    · exact .inr ⟨_, .fatalNow (.inl rfl), rfl⟩
    · exact .inl ⟨_, rfl, _, rfl⟩
  | insert flen start len order value frame =>
    simp only [readyEffect]
    rcases insertReady_cases flen start len order value frame s with
      ⟨hf, h⟩ | ⟨-, -, h⟩ | ⟨-, -, -, h⟩ | ⟨-, -, -, h⟩ <;> rw [h]
    · exact .inr ⟨_, .illegal (by simp [Instr.wellFormed, hf]), rfl⟩
    · exact .inr ⟨_, .fatalNow (.inr (.inl rfl)), rfl⟩
    · exact .inr ⟨_, .fatalNow (.inr (.inl rfl)), rfl⟩
    · exact .inl ⟨_, rfl, _, _, rfl⟩
  | encode eng scale offset len signed min max =>
    simp only [readyEffect, encodeReady]
    rcases encodeResult_cases (sint s.cfg.par.wEng eng) (sint s.cfg.par.wCoef scale) (sint s.cfg.par.wCoef offset)
      len.toNat signed (sint s.cfg.par.wEng min) (sint s.cfg.par.wEng max) s with ⟨c, -, h⟩ | ⟨-, h⟩ <;> rw [h]
    · exact .inr ⟨_, .fatalNow (.inr (.inr rfl)), rfl⟩
    · exact .inl ⟨_, rfl, _, rfl⟩
  | parse flen frame =>
    simp only [readyEffect]
    rcases parseReady_cases flen frame s with ⟨-, h⟩ | ⟨-, h⟩ <;> rw [h]
    · exact .inr ⟨_, .short rfl, rfl⟩
    · exact .inl ⟨_, rfl, rfl⟩
  | stage idx eng =>
    simp only [readyEffect]
    rcases stageReady_cases idx eng s with ⟨-, h⟩ | ⟨-, h⟩ <;> rw [h]
    · exact .inl ⟨_, rfl, rfl⟩
    · exact .inr ⟨_, .badIdx rfl, rfl⟩
  | reset => exact .inl ⟨_, rfl, rfl⟩
  | update | rdstate => exact .inl ⟨_, rfl, _, _, rfl⟩
  | decode | getid | getperiod | rdstatus => exact .inl ⟨_, rfl, _, rfl⟩

/-- In READY and in FATAL: the command's own payload, or a status alone. -/
theorem exec_rsp {s t : State} {i : Instr} (h : exec i s = .next t) :
    ∃ r, t.rsp = some r ∧ (i.OkResponse r ∨ ∃ st, r = Response.bare st) := by
  rcases exec_next h with ⟨-, rfl⟩ | ⟨-, -, rfl⟩ | ⟨-, rfl, rfl⟩
  · rcases readyEffect_rsp i s with ⟨r, hr, hok⟩ | ⟨st, -, hr⟩
    · exact ⟨r, hr, .inl hok⟩
    · exact ⟨_, hr, .inr ⟨st, rfl⟩⟩
  · exact ⟨_, rfl, .inr ⟨_, rfl⟩⟩
  · exact ⟨_, rfl, .inl ⟨_, rfl⟩⟩

/-- The same of an accepted record, legal or not (30_encoding R66). -/
theorem runCommand_rsp {s t : State} {c : Command} (h : runCommand c s = .next t) :
    ∃ r, t.rsp = some r ∧ ((∃ i : Instr, i.OkResponse r) ∨ ∃ st, r = Response.bare st) := by
  rcases runCommand_cases c s with ⟨i, -, e⟩ | ⟨_, -, e⟩ <;> rw [e] at h
  · obtain ⟨r, hr, hok | hbare⟩ := exec_rsp h
    · exact ⟨r, hr, .inl ⟨i, hok⟩⟩
    · exact ⟨r, hr, .inr hbare⟩
  · rcases whenReady_next h with ⟨-, rfl⟩ | ⟨-, rfl⟩ <;> exact ⟨_, rfl, .inr ⟨_, rfl⟩⟩

/-- Settles O41: every answer is a payload with ST_OK or a status alone. -/
theorem everyCommandGetsOneResponse : Obligations.EveryCommandGetsOneResponse := by
  constructor
  · intro s t c rest hport hp hstep
    rw [step_command hport hp] at hstep
    obtain ⟨r, hr, ⟨i, hok⟩ | ⟨st, rfl⟩⟩ := runCommand_rsp hstep
    · exact ⟨r, hr, fun hne => absurd hok.status hne⟩
    · exact ⟨_, hr, fun _ => ⟨rfl, rfl, rfl⟩⟩
  · intro s t i r hexec hr
    obtain ⟨r', hr', hrsp⟩ := exec_rsp hexec
    obtain rfl := Option.some.inj (hr.symm.trans hr')
    rcases hrsp with hok | ⟨st, rfl⟩
    · cases i with
      | extract | encode | decode | getid | getperiod | rdstatus => obtain ⟨v, rfl⟩ := hok; exact ⟨rfl, rfl⟩
      | insert | update | rdstate => obtain ⟨F, n, rfl⟩ := hok; rfl
      | parse | reset | stage => obtain rfl := hok; exact ⟨rfl, rfl, rfl⟩
    · cases i with
      | extract | encode | decode | getid | getperiod | rdstatus => exact ⟨rfl, rfl⟩
      | insert | update | rdstate => rfl
      | parse | reset | stage => exact ⟨rfl, rfl, rfl⟩

/-- Settles O7: the six steps one after the other, then the endings from the response of each command. -/
theorem decodeProcedureInOrder : Obligations.DecodeProcedureInOrder := by
  constructor
  · intro s c rest hport hp
    rw [step_command hport hp]
    split
    · next hc => exact runCommand_ok (decode_rdstatus hc) _
    next hc =>
    split
    · next hf => exact runCommand_fatal (s := { s with port := rest }) hf hc
    next hf =>
    have hr : State.Ready { s with port := rest } := by
      cases hph : s.status.phase with
      | constructed => exact absurd hph hp
      | ready => exact hph
      | fatal => exact absurd hph hf
    split
    · next hm =>
      rw [runCommand_noRow hm]
      exact execIllegal_ready hr
    · next m hm =>
      rw [runCommand_of_row hm, execIllegal_ready hr]
      rfl
  · intro s t c i hr hd hexec
    obtain rfl := Host.Outcome.next.inj ((exec_ready hr i).symm.trans hexec)
    rcases readyEffect_rsp i s with ⟨r, hrsp, hok⟩ | ⟨st, href, hrsp⟩
    · exact ⟨r, hrsp, .inl hok.status⟩
    · refine ⟨_, hrsp, .inr ?_⟩
      cases href with
      | illegal hwf => exact absurd (wf_of_decode hd) hwf
      | short hi => exact .inl ⟨rfl, hi⟩
      | badIdx hi => exact .inr (.inl ⟨rfl, hi⟩)
      | fatalNow hi => exact .inr (.inr ⟨rfl, hi⟩)

/-! ## Unexamined bits -/

theorem mnemonic_eq_rdstatus {i : Instr} : i.mnemonic = .rdstatus ↔ i = .rdstatus := by
  cases i <;> simp [Instr.mnemonic]

/-- Two commands of one mnemonic do the same where their effects in READY agree: no other phase looks at an operand. -/
theorem exec_congr {i j : Instr} {s : State} (hm : i.mnemonic = j.mnemonic)
    (h : s.Ready → readyEffect i s = readyEffect j s) : exec i s = exec j s := by
  cases hp : s.status.phase with
  | constructed => rw [exec_constructed hp, exec_constructed hp]
  | ready => rw [exec_ready hp, exec_ready hp, h hp]
  | fatal =>
    by_cases hi : i = .rdstatus
    · have hj : j = .rdstatus := mnemonic_eq_rdstatus.1 (hm ▸ mnemonic_eq_rdstatus.2 hi)
      rw [hi, hj]
    · have hj : j ≠ .rdstatus := fun hj => hi (mnemonic_eq_rdstatus.1 (hm ▸ mnemonic_eq_rdstatus.2 hj))
      rw [exec_fatal hp hi, exec_fatal hp hj]

/-- The reserved bits are examined by every pure command (30_encoding R64). -/
theorem descReserved_of_examinedEqual {m : Mnemonic} {cfg : CodecConfig} {c c' : Command}
    (h : examinedEqual m cfg c c') (hm : m.isPure = true) : descReserved c.desc = descReserved c'.desc := by
  cases m with
  | extract => rw [h.1]
  | insert | decode | encode => exact extractLsb'_of_masked h.1 rfl
  | _ => cases hm

/-- In READY a command looks at no bit it does not examine (30_encoding R61). -/
theorem readyEffect_of_examinedEqual {s : State} {m : Mnemonic} {c c' : Command} (hv : s.cfg.Valid)
    (hh : c.hdr = c'.hdr) (h : examinedEqual m s.cfg c c') :
    readyEffect (operandsOf m c) s = readyEffect (operandsOf m c') s := by
  cases m with
  | extract =>
    obtain ⟨hdesc, hframe⟩ := h
    simp only [operandsOf, readyEffect, extractReady, hh, hdesc]
    split
    · rfl
    split
    · rfl
    · next hb =>
      rw [hh] at hframe
      rw [extractField_of_bytes hframe (checkField_none.1 hb).2]
  | insert =>
    obtain ⟨hdesc, hval, hframe⟩ := h
    have hstart : ctlStart c.desc = ctlStart c'.desc := extractLsb'_of_masked hdesc rfl
    have hlen : ctlLen c.desc = ctlLen c'.desc := extractLsb'_of_masked hdesc rfl
    have horder : ctlOrder c.desc = ctlOrder c'.desc := by rw [ctlOrder, ctlOrder, getLsbD_of_masked hdesc rfl]
    simp only [operandsOf, hh, hstart, hlen, horder, hval, hframe]
  | decode =>
    obtain ⟨hdesc, hval, hscale, hoffset⟩ := h
    have hsigned : ctlSigned c.desc = ctlSigned c'.desc := getLsbD_of_masked hdesc rfl
    simp only [operandsOf, readyEffect, decodeReady, hsigned, hval, hscale, hoffset]
  | encode =>
    obtain ⟨hdesc, hval, hscale, hoffset, hmin, hmax⟩ := h
    have hlen : ctlLen c.desc = ctlLen c'.desc := extractLsb'_of_masked hdesc rfl
    have hsigned : ctlSigned c.desc = ctlSigned c'.desc := getLsbD_of_masked hdesc rfl
    simp only [operandsOf, readyEffect, encodeReady, hlen, hsigned, hval, hscale, hoffset, hmin, hmax]
  | parse =>
    simp only [operandsOf, readyEffect, parseReady, hh]
    split
    · rfl
    · next hlen =>
      rw [examinedEqual, hh] at h
      rw [parseWrites_of_bytes hv (h (by omega))]
  | stage =>
    simp only [operandsOf, readyEffect, stageReady, hh]
    rw [show sint s.cfg.par.wEng c.val = sint s.cfg.par.wEng c'.val from h]
  | _ => rfl

/-- Settles O5: both records pass or fail the same steps of the decode procedure, and what is executed looks at
examined bits alone. -/
theorem unexaminedBitsHaveNoEffect : Obligations.UnexaminedBitsHaveNoEffect := by
  intro s c c' m hv hh hm h
  rw [runCommand_of_row hm, runCommand_of_row (hh ▸ hm), ← hh]
  refine if_congr Iff.rfl rfl (if_congr (and_congr_right fun hpure => ?_) rfl ?_)
  · rw [descReserved_of_examinedEqual h (isPure_iff.2 hpure)]
  · exact exec_congr ((operandsOf_mnemonic m c).trans (operandsOf_mnemonic m c').symm)
      fun hr => readyEffect_of_examinedEqual (hv hr) hh h

end Sys2Proof.Machine
end

section
/-! PROOFS. The BitField Accessor (spec/40_bitfield.md): the laws of reading and writing fields, and the outcomes of EXTRACT
and INSERT on every operand. -/

namespace Sys2Proof.Machine

/-! ## Writing one field -/

/-- The bound inside a frame of at most eight bytes, as a bound on the 64 bits (40_bitfield R82). -/
theorem checkField_none_bounds {n start len : Nat} (hn : n ≤ 8) (h : checkField n start len = none) :
    1 ≤ len ∧ start + len ≤ 64 := by
  obtain ⟨h1, hb⟩ := checkField_none.1 h
  exact ⟨h1, by omega⟩

/-- A bit of the new frame depends on the same bit of the old frame alone. -/
theorem frameBit_insertField_congr {F G : Frame} {start len : Nat} (order : ByteOrder) (v : Raw) (hb : start + len ≤ 64)
    {p : Nat × Nat} (hp : p.2 < 8) (h : frameBit F p = frameBit G p) :
    frameBit (insertField F start len order v) p = frameBit (insertField G start len order v) p := by
  by_cases hm : p ∈ bitSet order start len
  · obtain ⟨i, hi, rfl⟩ := mem_bitSet.1 hm
    rw [frameBit_insertField_field F order v hi hb, frameBit_insertField_field G order v hi hb]
  · rw [frameBit_insertField_other F _ _ _ v hp hm, frameBit_insertField_other G _ _ _ v hp hm, h]

/-- Writing the same value twice is writing it once (40_bitfield R90 c). -/
theorem insertField_idem (F : Frame) {start len : Nat} (order : ByteOrder) (v : Raw) (hb : start + len ≤ 64) :
    insertField (insertField F start len order v) start len order v = insertField F start len order v :=
  insertField_self hb fun _ hi => (frameBit_insertField_field F order v hi hb).symm

/-! ## Reading one field -/

/-- The bits of a field are the low bits of its extraction, signed or not. -/
theorem getLsbD_extractField (F : Frame) {start len : Nat} (order : ByteOrder) (signed : Bool) (h : len ≤ 64) {i : Nat}
    (hi : i < len) : (extractField F start len order signed).getLsbD i = frameBit F (fieldBit order start len i) := by
  rw [extractField_eq F order signed (by omega) h]
  cases signed
  · simp [getLsbD_extractField_unsigned F order h, hi]
  · rw [if_pos rfl, sextLow, BitVec.getLsbD_signExtend, BitVec.getLsbD_setWidth, getLsbD_extractField_unsigned F order h]
    simp [hi, show i < 64 by omega]

/-- Writing back what was read changes nothing (40_bitfield R90 b). -/
theorem insert_extract (F : Frame) {start len : Nat} (order : ByteOrder) (signed : Bool) (hb : start + len ≤ 64) :
    insertField F start len order (extractField F start len order signed) = F :=
  insertField_self hb fun _ hi => getLsbD_extractField F order signed (by omega) hi

/-- Reading a field just written gives the low `len` bits of the value, sign-extended (40_bitfield R90 a). -/
theorem extract_insert_signed (F : Frame) {start len : Nat} (order : ByteOrder) (v : Raw) (h1 : 1 ≤ len)
    (hb : start + len ≤ 64) :
    extractField (insertField F start len order v) start len order true = sextLow len v := by
  rw [extractField_signed _ order h1 (by omega), extract_insert_unsigned F order v hb, sextLow,
    BitVec.setWidth_setWidth_of_le _ (by omega), BitVec.setWidth_setWidth_of_le _ (Nat.le_refl len)]

/-! ## Two fields -/

section TwoFields
variable {a la b lb : Nat} {oa ob : ByteOrder}

/-- Writing a field leaves what a disjoint one holds (40_bitfield R90 d). -/
theorem extract_insert_disjoint (F : Frame) (v : Raw) (hd : ∀ p ∈ bitSet oa a la, p ∉ bitSet ob b lb) (signed : Bool) :
    extractField (insertField F a la oa v) b lb ob signed = extractField F b lb ob signed :=
  extractField_congr (fun j hj => frameBit_insertField_other F _ _ _ v (fieldBit_snd_lt ..)
    fun hm => hd _ hm (mem_bitSet.2 ⟨j, hj, rfl⟩)) signed

/-- Writes to disjoint fields commute: at each bit at least one of them writes nothing (40_bitfield R90 d). -/
theorem insertField_comm (F : Frame) (v w : Raw) (ha : a + la ≤ 64) (hb : b + lb ≤ 64)
    (hd : ∀ p ∈ bitSet oa a la, p ∉ bitSet ob b lb) :
    insertField (insertField F a la oa v) b lb ob w = insertField (insertField F b lb ob w) a la oa v := by
  apply frame_ext
  intro p _ hp
  by_cases hm : p ∈ bitSet oa a la
  · have hw : p ∉ bitSet ob b lb := hd p hm
    rw [frameBit_insertField_other _ _ _ _ w hp hw]
    exact frameBit_insertField_congr oa v ha hp (frameBit_insertField_other F _ _ _ w hp hw).symm
  · rw [frameBit_insertField_other (insertField F b lb ob w) _ _ _ v hp hm]
    exact frameBit_insertField_congr ob w hb hp (frameBit_insertField_other F _ _ _ v hp hm)

end TwoFields

/-- Settles O13: each law is read off bit by bit; the last one by all ones over a field that zero was written across. -/
theorem fieldReadWriteLaws : Obligations.FieldReadWriteLaws := by
  refine ⟨?_, ?_, ?_, 0, 0xFF, 0, by decide⟩
  · intro F n start len order v hn hc
    obtain ⟨h1, hb⟩ := checkField_none_bounds hn hc
    exact ⟨extract_insert_unsigned F order v hb, extract_insert_signed F order v h1 hb, insert_extract F order false hb,
      insert_extract F order true hb, insertField_idem F order v hb⟩
  · intro F n a la b lb oa ob v w hn ha hb hd
    exact ⟨insertField_comm F v w (checkField_none_bounds hn ha).2 (checkField_none_bounds hn hb).2 hd,
      extract_insert_disjoint F v hd⟩
  · intro F n a la b lb i j oa ob v w hn _ hb _ hj hij
    rw [hij, frameBit_insertField_field _ ob w hj (checkField_none_bounds hn hb).2]

/-! ## EXTRACT and INSERT inside the bound -/

/-- The extension of a field's unsigned value to 64 bits (40_bitfield R83). -/
theorem extractField_of_fieldSum {F : Frame} {start len u : Nat} {order : ByteOrder}
    (hu : fieldSum F order start len len = u) (signed : Bool) :
    extractField F start len order signed =
      if signed = true ∧ 2 ^ (len - 1) ≤ u then BitVec.ofInt 64 ((u : Int) - 2 ^ len) else BitVec.ofNat 64 u := by
  simp only [extractField, hu, Bool.and_eq_true, decide_eq_true_eq]

/-- Settles O14: the field's sum is the closed form over the first FLEN bytes. -/
theorem extractCompletes : Obligations.ExtractCompletes := by
  intro s flen start len order signed frame u hr hf h1 hb hu
  have hsum : fieldSum frame order start.toNat len.toNat len.toNat = u := by
    rw [hu]
    cases order with
    | intel => exact fieldSum_intel frame hb
    | motorola => exact fieldSum_motorola frame hb
  rw [exec_extract_inside hr order signed frame hf h1 hb, extractField_of_fieldSum hsum]
  rfl

/-- INSERT in READY with a field inside the bound (40_bitfield R88). -/
theorem exec_insert_inside {s : State} (hr : s.Ready) {flen : BitVec 4} {start len : BitVec 8} (order : ByteOrder)
    (value : Raw) (frame : Frame) (hf : flen.toNat ≤ 8) (h1 : 1 ≤ len.toNat)
    (hb : start.toNat + len.toNat ≤ 8 * flen.toNat) :
    exec (.insert flen start len order value frame) s =
      .next (s.respond (Response.okFrame (insertField frame start.toNat len.toNat order value) flen)) := by
  rw [exec_ready hr, readyEffect, insertReady, if_neg (by omega), checkField_none.2 ⟨h1, hb⟩]

/-- Settles O16: the frame is InsertField's, whose bits inside and outside the field are known. -/
theorem insertCompletes : Obligations.InsertCompletes := by
  intro s flen start len order value frame hr hf h1 hb
  exact ⟨insertField frame start.toNat len.toNat order value, exec_insert_inside hr order value frame hf h1 hb,
    fun i hi => frameBit_insertField_field frame order value hi (by omega),
    fun p _ hp hm => frameBit_insertField_other frame _ _ _ value hp hm⟩

/-! ## The corner cases of EXTRACT -/

theorem checkField_lenZero (n start : Nat) : checkField n start 0 = some .lenZero := rfl

theorem checkField_range {n start len : Nat} (h1 : 1 ≤ len) (h : 8 * n < start + len) :
    checkField n start len = some .range := by
  rw [checkField, if_neg (by omega), if_pos h]

/-- At full width sign extension changes nothing (40_bitfield R85 a). -/
theorem extractField_full (F : Frame) (start : Nat) (order : ByteOrder) (signed : Bool) :
    extractField F start 64 order signed = BitVec.ofNat 64 (fieldSum F order start 64 64) := by
  rw [← extractField_unsigned, extractField_eq F order signed (by decide) (Nat.le_refl 64), sextLow,
    BitVec.setWidth_eq, BitVec.signExtend_eq, ite_self]

/-- An unsigned field of one bit (40_bitfield R85 c). -/
theorem extractField_one_unsigned (F : Frame) (start : Nat) (order : ByteOrder) :
    extractField F start 1 order false = if frameBit F (fieldBit order start 1 0) then 1 else 0 := by
  rw [extractField_unsigned, fieldSum, fieldSum]
  cases frameBit F (fieldBit order start 1 0) <;> rfl

/-- A signed field of one bit is its own sign (40_bitfield R85 b). -/
theorem extractField_one_signed (F : Frame) (start : Nat) (order : ByteOrder) :
    extractField F start 1 order true =
      if frameBit F (fieldBit order start 1 0) then 0xFFFFFFFFFFFFFFFF else 0 := by
  rw [extractField_signed F order (by decide) (by decide), extractField_one_unsigned]
  cases frameBit F (fieldBit order start 1 0) <;> decide

/-- The payload of every answer of EXTRACT is a 64-bit pattern (40_bitfield R85 g). -/
theorem exec_extract_rsp {s t : State} {flen : BitVec 4} {start len : BitVec 8} {order : ByteOrder} {signed : Bool}
    {frame : Frame} (h : exec (.extract flen start len order signed frame) s = .next t) :
    ∃ (st : RspStatus) (x : Raw), t.rsp = some ⟨st, x.toNat, 0, 0⟩ := by
  rcases exec_next h with ⟨-, rfl⟩ | ⟨-, -, rfl⟩ | ⟨-, hi, -⟩
  · rw [readyEffect]
    rcases extractReady_cases flen start len order signed frame s with
      ⟨-, he⟩ | ⟨-, -, he⟩ | ⟨-, -, -, he⟩ | ⟨-, -, -, he⟩ <;> rw [he]
    · exact ⟨.illegal, 0, rfl⟩
    · exact ⟨.fatalNow, 0, rfl⟩
    · exact ⟨.fatalNow, 0, rfl⟩
    · exact ⟨.ok, _, rfl⟩
  · exact ⟨.fatal, 0, rfl⟩
  · cases hi

/-- Settles O15: the closed forms at full width, the one bit of a one-bit field, and the field check at its ends. -/
theorem extractCornerCases : Obligations.ExtractCornerCases := by
  refine ⟨?_, fun F start order _ => ⟨extractField_one_signed F start order, extractField_one_unsigned F start order⟩,
    fun _ _ _ => checkField_none, ?_, fun n hn => checkField_range (by decide) (by omega), ?_⟩
  · intro F signed
    have hmod (u : Nat) : BitVec.ofNat 64 (u / 2 ^ 0 % 2 ^ 64) = BitVec.ofNat 64 u := by
      apply BitVec.eq_of_toNat_eq
      simp
    rw [extractField_full, extractField_full, fieldSum_intel F (n := 8) (by decide),
      fieldSum_motorola F (n := 8) (by decide)]
    exact ⟨hmod _, hmod _⟩
  · intro start len
    split
    next h => rw [h, checkField_lenZero]
    next h => exact checkField_range (by omega) (by omega)
  · intro s t flen start len order signed frame r h hr
    obtain ⟨st, x, hx⟩ := exec_extract_rsp h
    obtain rfl := Option.some.inj (hx.symm.trans hr)
    have hlt : (x.toNat : Int) < 2 ^ 64 := by exact_mod_cast x.isLt
    exact ⟨Int.natCast_nonneg _, hlt⟩

/-! ## Operands that EXTRACT and INSERT do not accept -/

section BadOperands
variable {flen : BitVec 4} {start len : BitVec 8} {order : ByteOrder} {signed : Bool} {value : Raw} {frame : Frame}
  {i : Instr} (hi : i = .extract flen start len order signed frame ∨ i = .insert flen start len order value frame)
include hi

/-- A frame of more than eight bytes is refused (30_encoding R69 step 4). -/
theorem readyEffect_flen_gt_eight (h : 8 < flen.toNat) (s : State) : readyEffect i s = s.refuse .illegal := by
  rcases hi with rfl | rfl
  · rw [readyEffect, extractReady, if_pos h]
  · rw [readyEffect, insertReady, if_pos h]

/-- Both commands raise the cause that CheckField reports (40_bitfield R84, R88). -/
theorem readyEffect_checkField_some (h : flen.toNat ≤ 8) {c : Cause}
    (hc : checkField flen.toNat start.toNat len.toNat = some c) (s : State) : readyEffect i s = s.fatalNow c := by
  rcases hi with rfl | rfl
  · rw [readyEffect, extractReady, if_neg (by omega), hc]
  · rw [readyEffect, insertReady, if_neg (by omega), hc]

end BadOperands

/-- Settles O17: the cause is CheckField's, in READY. -/
theorem fieldCommandsRaiseFatalOnBadBounds : Obligations.FieldCommandsRaiseFatalOnBadBounds := by
  intro s flen start len order signed value frame i hr hi
  rw [exec_ready hr]
  refine ⟨fun h => ?_, fun hf h => ?_, fun hf h1 h => ?_⟩
  · rw [readyEffect_flen_gt_eight hi h]
    rfl
  · rw [readyEffect_checkField_some hi hf (h ▸ checkField_lenZero _ _)]
    rfl
  · rw [readyEffect_checkField_some hi hf (checkField_range h1 h)]
    rfl

end Sys2Proof.Machine
end

section
/-! PROOFS. The fixed-point scaler (spec/41_transform.md): DECODE is exact, round_haz is the nearest integer, ENCODE
saturates at both stages, and encoding followed by decoding comes back within the error of the one rounding. -/

namespace Sys2Proof.Machine

/-! ## Rounding to the nearest -/

/-- An integer within half a divisor of the quotient is a nearest one: any other lies at least one divisor away from
it. -/
theorem nearest_of_within_half {n d r : Int} (h : 2 * |r * d - n| ≤ |d|) (q : Int) : |r * d - n| ≤ |q * d - n| := by
  rcases eq_or_ne q r with rfl | hq
  · exact le_rfl
  have hstep : |d| ≤ |(q - r) * d| := by
    rw [abs_mul]
    exact le_mul_of_one_le_left (abs_nonneg d) (Int.one_le_abs (sub_ne_zero.2 hq))
  have htri : |(q - r) * d| ≤ |q * d - n| + |r * d - n| := by
    rw [show (q - r) * d = (q * d - n) - (r * d - n) by ring]
    exact abs_sub _ _
  omega

/-- In a tie the rounded multiple lies beyond `n`, seen from zero. -/
theorem roundPos_tie {n d : Int} (hd : 0 < d) (h : 2 * |roundPos n d * d - n| = d) : |n| < |roundPos n d * d| := by
  obtain ⟨-, -, hup, hdown⟩ := roundPos_spec (n := n) hd
  generalize roundPos n d * d = m at *
  rw [Int.abs_eq_natAbs] at h
  rw [Int.abs_eq_natAbs, Int.abs_eq_natAbs]
  rcases le_or_gt 0 n with hn | hn
  · have := hup hn
    omega
  · have := hdown hn
    omega

/-- Ties go away from zero for every divisor (41_transform R97). -/
theorem roundHaz_tie {n d : Int} (hd : d ≠ 0) (h : 2 * |roundHaz n d * d - n| = |d|) : |n| < |roundHaz n d * d| := by
  rcases lt_or_gt_of_ne hd with hneg | hpos
  · rw [roundHaz, if_pos hneg] at h ⊢
    have htie := roundPos_tie (n := -n) (d := -d) (by omega)
    rw [mul_neg, neg_sub_neg, abs_neg, abs_neg, abs_sub_comm] at htie
    exact htie (h.trans (abs_of_neg hneg))
  · rw [roundHaz, if_neg (by omega)] at h ⊢
    exact roundPos_tie hpos (h.trans (abs_of_pos hpos))

theorem roundHaz_zero_left {d : Int} (hd : d ≠ 0) : roundHaz 0 d = 0 :=
  roundHaz_unique hd (by simpa using hd) (by simpa using hd)

/-- Settles O21: within one half, hence nearest; the tie by the sign of the divisor; the listed values evaluated. -/
theorem roundingIsToNearestTiesAway : Obligations.RoundingIsToNearestTiesAway := by
  refine ⟨fun n d hd => ?_, by decide⟩
  have hhalf : 2 * |roundHaz n d * d - n| ≤ |d| := roundBy_near (.inl rfl) hd
  exact ⟨hhalf, nearest_of_within_half hhalf, roundHaz_tie hd, roundHaz_neg_left hd, roundHaz_neg_right hd,
    roundHaz_zero_left hd⟩

/-! ## DECODE -/

/-- Settles O18: the exact value fits W_ENG bits, so the port's pattern stands for it. -/
theorem decodeCompletesExactly : Obligations.DecodeCompletesExactly := by
  rintro s raw signed scale offset _ hr hW rfl
  refine ⟨?_, abs_decodeValue_lt raw signed (sint_sint _ scale) (sint_sint _ offset)⟩
  rw [exec_ready hr, readyEffect, decodeReady, sint_decodeValue hW raw signed (sint_sint _ scale) (sint_sint _ offset)]
  rfl

/-! ## Where ENCODE raises Fatal -/

theorem checkEncode_lenZero (S MIN MAX : Int) : checkEncode S 0 MIN MAX = some .lenZero := rfl

theorem checkEncode_lenWide {len : Nat} (h : 64 < len) (S MIN MAX : Int) :
    checkEncode S len MIN MAX = some .lenWide := by
  rw [checkEncode, if_neg (by omega), if_pos h]

theorem checkEncode_scaleZero {len : Nat} (h1 : 1 ≤ len) (h2 : len ≤ 64) (MIN MAX : Int) :
    checkEncode 0 len MIN MAX = some .scaleZero := by
  rw [checkEncode, if_neg (by omega), if_neg (by omega), if_pos rfl]

theorem checkEncode_limitOrder {S : Int} {len : Nat} {MIN MAX : Int} (h1 : 1 ≤ len) (h2 : len ≤ 64) (hS : S ≠ 0)
    (h : MAX < MIN) : checkEncode S len MIN MAX = some .limitOrder := by
  rw [checkEncode, if_neg (by omega), if_neg (by omega), if_neg hS, if_pos h]

/-- ENCODE raises the cause that its tests report (41_transform R99). -/
theorem encodeResult_fatal {S : Int} {len : Nat} {MIN MAX : Int} {c : Cause} (h : checkEncode S len MIN MAX = some c)
    (E O : Int) (signed : Bool) (s : State) : encodeResult E S O len signed MIN MAX s = s.fatalNow c := by
  rw [encodeResult, h]

/-- Settles O20: the cause is that of the first of the four tests that fails. -/
theorem encodeRaisesFatalInOrder : Obligations.EncodeRaisesFatalInOrder := by
  rintro s eng scale offset len signed min max c S MIN MAX hr rfl rfl rfl h
  have hcheck : checkEncode (sint s.cfg.par.wCoef scale) len.toNat (sint s.cfg.par.wEng min) (sint s.cfg.par.wEng max) =
      some c := by
    rcases h with ⟨rfl, h0⟩ | ⟨rfl, h64⟩ | ⟨rfl, h1, h2, hS⟩ | ⟨rfl, h1, h2, hS, hlim⟩
    · rw [h0, checkEncode_lenZero]
    · exact checkEncode_lenWide h64 _ _ _
    · rw [hS, checkEncode_scaleZero h1 h2]
    · exact checkEncode_limitOrder h1 h2 hS hlim
  rw [exec_ready hr, readyEffect, encodeReady, encodeResult_fatal hcheck]
  rfl

/-! ## The two saturating stages -/

section Encoding
variable {p : Params} {E S O : Int} {len : Nat} {signed : Bool} {MIN MAX : Int}

/-- The encoded pattern, read by the field's SIGNED, is the saturated integer (41_transform R105). -/
theorem rawInt_encodeValue (h1 : 1 ≤ len) (h2 : len ≤ 64) :
    rawInt (encodeValue p E S O len signed MIN MAX) signed = encodeInt p E S O len signed MIN MAX :=
  rawInt_ofInt h1 h2 (encodeInt_mem p E S O len signed MIN MAX).1 (encodeInt_mem p E S O len signed MIN MAX).2

/-- So it lies in the range of the field (41_transform R100). -/
theorem rawInt_encodeValue_mem (h1 : 1 ≤ len) (h2 : len ≤ 64) :
    fieldLo p.signedClamp len signed ≤ rawInt (encodeValue p E S O len signed MIN MAX) signed ∧
      rawInt (encodeValue p E S O len signed MIN MAX) signed ≤ fieldHi len signed := by
  rw [rawInt_encodeValue h1 h2]
  exact encodeInt_mem p E S O len signed MIN MAX

/-- The second stage alters nothing inside the field's range. -/
theorem encodeInt_of_inside
    (hlo : fieldLo p.signedClamp len signed ≤ roundBy p.round (clamp E MIN MAX - O) S)
    (hhi : roundBy p.round (clamp E MIN MAX - O) S ≤ fieldHi len signed) :
    encodeInt p E S O len signed MIN MAX = roundBy p.round (clamp E MIN MAX - O) S :=
  clamp_of_mem hlo hhi

/-- The encoding looks at the limited value alone (41_transform R98). -/
theorem encodeValue_congr {E' : Int} (h : clamp E MIN MAX = clamp E' MIN MAX) :
    encodeValue p E S O len signed MIN MAX = encodeValue p E' S O len signed MIN MAX := by
  rw [encodeValue, encodeValue, encodeInt, encodeInt, h]

/-- A rounded quotient at or above the field's range gives its upper end. -/
theorem encodeInt_of_above (h : fieldHi len signed ≤ roundBy p.round (clamp E MIN MAX - O) S) :
    encodeInt p E S O len signed MIN MAX = fieldHi len signed :=
  clamp_of_ge (fieldLo_le_fieldHi _ _ _) h

/-- A rounded quotient at or below the field's range gives its lower end. -/
theorem encodeInt_of_below (h : roundBy p.round (clamp E MIN MAX - O) S ≤ fieldLo p.signedClamp len signed) :
    encodeInt p E S O len signed MIN MAX = fieldLo p.signedClamp len signed :=
  clamp_of_le h (fieldLo_le_fieldHi _ _ _)

end Encoding

/-- Settles O22: the pattern reads back as the saturated integer, whose range it is; the symmetric range begins above
the most negative code, and for one bit it is 0 alone. -/
theorem encodedIntegerStaysInFieldRange : Obligations.EncodedIntegerStaysInFieldRange := by
  intro p E S O len MIN MAX lo h1 h2 hlo
  have hfield : fieldLo p.signedClamp len true = lo := by rw [hlo, fieldLo_eq, if_pos rfl]
  have hunsigned := rawInt_encodeValue_mem (p := p) (E := E) (S := S) (O := O) (signed := false) (MIN := MIN)
    (MAX := MAX) h1 h2
  have hsigned := rawInt_encodeValue_mem (p := p) (E := E) (S := S) (O := O) (signed := true) (MIN := MIN)
    (MAX := MAX) h1 h2
  rw [hfield] at hsigned
  refine ⟨hunsigned, hsigned, fun hsym heq => ?_, fun hsym hone => ?_, ?_⟩
  · have hge : lo ≤ -(2 ^ (len - 1)) := heq ▸ hsigned.1
    rw [hlo, if_pos hsym] at hge
    omega
  · subst hone
    rw [hlo, if_pos hsym] at hsigned
    exact BitVec.eq_of_toInt_eq (le_antisymm hsigned.2 hsigned.1)
  · rintro q rfl
    exact ⟨fun hq1 hq2 => (rawInt_encodeValue (signed := false) h1 h2).trans (encodeInt_of_inside hq1 hq2),
      fun hq1 hq2 => (rawInt_encodeValue (signed := true) h1 h2).trans (encodeInt_of_inside (hfield ▸ hq1) hq2)⟩

/-- Settles O23: each stage by what its clamp gives at and beyond an end. -/
theorem encodingClampsAtBothStages : Obligations.EncodingClampsAtBothStages := by
  intro p E S O len signed MIN MAX lo hi _ hlim hrange
  rw [← fieldRange_eq] at hrange
  obtain ⟨rfl, rfl⟩ := Prod.mk.inj hrange
  refine ⟨fun hE => encodeValue_congr ?_, fun hE => encodeValue_congr ?_, fun hq => ?_, fun hq => ?_⟩
  · rw [clamp_of_ge hlim hE, clamp_of_ge hlim le_rfl]
  · rw [clamp_of_le hE hlim, clamp_of_le le_rfl hlim]
  · rw [encodeValue, encodeInt_of_above hq]
  · rw [encodeValue, encodeInt_of_below hq]

/-! ## Encoding, then decoding -/

/-- Both readings of a field just written (40_bitfield R90 a). -/
theorem extract_insert (F : Frame) {start len : Nat} (order : ByteOrder) (v : Raw) (signed : Bool) (h1 : 1 ≤ len)
    (hb : start + len ≤ 64) :
    extractField (insertField F start len order v) start len order signed =
      if signed then sextLow len v else zextLow len v := by
  cases signed
  · exact extract_insert_unsigned F order v hb
  · exact extract_insert_signed F order v h1 hb

section RoundTrip
variable {p : Params} {E S O : Int} {len : Nat} {signed : Bool} {MIN MAX : Int} (h1 : 1 ≤ len)
include h1

/-- Through a field of a frame the saturated integer comes back as well (41_transform R106). -/
theorem rawInt_extract_insert_encodeValue (F : Frame) {start : Nat} (order : ByteOrder) (hb : start + len ≤ 64) :
    rawInt (extractField (insertField F start len order (encodeValue p E S O len signed MIN MAX)) start len order signed)
      signed = encodeInt p E S O len signed MIN MAX := by
  obtain ⟨hlo, hhi⟩ := encodeInt_mem p E S O len signed MIN MAX
  rw [extract_insert F order _ signed h1 hb]
  exact rawInt_field h1 (by omega) hlo hhi

/-- A value within its limits whose rounded quotient is inside the field's range is off by the rounding alone. -/
theorem decode_encode_sub (h2 : len ≤ 64) (hmin : MIN ≤ E) (hmax : E ≤ MAX)
    (hlo : fieldLo p.signedClamp len signed ≤ roundBy p.round (E - O) S)
    (hhi : roundBy p.round (E - O) S ≤ fieldHi len signed) :
    decodeValue (encodeValue p E S O len signed MIN MAX) signed S O - E = roundBy p.round (E - O) S * S - (E - O) := by
  have hclamp : clamp E MIN MAX = E := clamp_of_mem hmin hmax
  rw [decodeValue, rawInt_encodeValue h1 h2, encodeInt_of_inside (by rwa [hclamp]) (by rwa [hclamp]), hclamp]
  ring

/-- Decoding does not see whether the pattern has been through a frame (41_transform R106). -/
theorem decodeValue_extract_insert (F : Frame) {start : Nat} (order : ByteOrder) (hb : start + len ≤ 64) :
    decodeValue (extractField (insertField F start len order (encodeValue p E S O len signed MIN MAX)) start len order
      signed) signed S O = decodeValue (encodeValue p E S O len signed MIN MAX) signed S O := by
  rw [decodeValue, decodeValue, rawInt_extract_insert_encodeValue h1 F order hb, rawInt_encodeValue h1 (by omega)]

end RoundTrip

/-- Settles O24: the error of the round trip is that of the rounding, times the scale. -/
theorem encodeDecodeRoundTrip : Obligations.EncodeDecodeRoundTrip := by
  rintro p E S O len signed MIN MAX lo hi _ h1 h2 hS hmin hmax hrange hlo hhi rfl
  rw [← fieldRange_eq] at hrange
  obtain ⟨rfl, rfl⟩ := Prod.mk.inj hrange
  rw [decode_encode_sub h1 h2 hmin hmax hlo hhi]
  refine ⟨fun hr => roundBy_near hr hS, fun hr => ?_, fun F start order => decodeValue_extract_insert h1 F order⟩
  rw [hr]
  exact (roundTowardZero_spec hS).2

/-! ## Through UPDATE and PARSE -/

/-- A writable descriptor whose bits no later writable one shares holds the encoding of its staged value after UPDATE,
so writing that encoding once more changes nothing (42_codec R120, R127). -/
theorem insertSignal_updateFrame {c : CodecConfig} {k : Nat} {d : Desc} (x : Nat → Eng) (G : Frame)
    (hd : c.descs[k]? = some d) (hw : d.wr = true) (hb : d.start + d.len ≤ 64)
    (hlast : ∀ k' e, k < k' → c.descs[k']? = some e → e.wr = true → ∀ p ∈ d.bits, p ∉ e.bits) :
    insertSignal c.par (updateFrame c x G) d (x k) = updateFrame c x G := by
  refine insertField_self hb fun i hi => ?_
  have hbit := frameBit_walk_last c.par x c.descs 0 G hd hw hi hb
    fun k' e hk he hew => hlast k' e hk he hew _ (mem_bitSet.2 ⟨i, hi, rfl⟩)
  rw [updateFrame_eq_walk, hbit, Nat.zero_add]

/-- What PARSE decodes from the frame that UPDATE leaves: the round trip of the staged value, which
fits W_ENG bits. -/
theorem decodeSignal_updateFrame {c : CodecConfig} (hfits : c.Fits) (hvalid : c.Valid) {k : Nat} {d : Desc}
    (x : Nat → Eng) (G : Frame) (hd : c.descs[k]? = some d) (hw : d.wr = true)
    (hlast : ∀ k' e, k < k' → c.descs[k']? = some e → e.wr = true → ∀ p ∈ d.bits, p ∉ e.bits) :
    decodeSignal c.par d (updateFrame c x G) =
      decodeValue (encodeSignal c.par d (x k)) d.signed d.scale d.offset := by
  have hmem : d ∈ c.descs := List.mem_of_getElem? hd
  obtain ⟨h1, -, -, hb, -, -⟩ := valid_desc hvalid hmem
  rw [decodeSignal, sint_decodeValue hfits.wEng _ _ (hfits.scale d hmem) (hfits.offset d hmem),
    ← insertSignal_updateFrame x G hd hw hb hlast]
  exact decodeValue_extract_insert h1 _ d.order hb

/-- CD[k] after a PARSE of at least DLEN bytes (42_codec R124). -/
theorem read_cd_parseReady {s : State} (hcd : s.cd.Wf) {flen : BitVec 4} (hf : s.cfg.dlen.toNat ≤ flen.toNat)
    (frame : Frame) {k : Nat} {d : Desc} (hd : s.cfg.descs[k]? = some d) :
    (parseReady flen frame s).cd.read k = some (decodeSignal s.cfg.par d frame) := by
  rcases parseReady_cases flen frame s with ⟨hlt, -⟩ | ⟨-, he⟩
  · omega
  · rw [he, read_cd_parse hcd, hd]
    rfl

/-- UPDATE in READY, and PARSE of the frame it answered (42_codec R124, R127). -/
theorem exec_update_parse {s : State} (hr : s.Ready) (hcd : s.cd.Wf) {k : Nat} {d : Desc}
    (hd : s.cfg.descs[k]? = some d) :
    ∃ (t u : State) (r : Response), exec .update s = .next t ∧ t.rsp = some r ∧ r.status = .ok ∧
      exec (.parse r.flen r.frame) t = .next u ∧
      u.cd.read k = some (decodeSignal s.cfg.par d (updateFrame s.cfg s.readCmd s.cs)) :=
  have hr' : (updateReady s).Ready := hr
  ⟨updateReady s, _, _, exec_ready hr .update, rfl, rfl, exec_ready hr' _,
    read_cd_parseReady (s := updateReady s) hcd le_rfl _ hd⟩

/-- Settles O29: CD[k] is the round trip of the staged value, which is off by the rounding alone. -/
theorem updatedFrameParsesBackWithinHalfACount : Obligations.UpdatedFrameParsesBackWithinHalfACount := by
  intro s k d lo hi hr hfits hvalid hcd hround hd hw hlast hmin hmax hrange hlo hhi
  rw [← fieldRange_eq] at hrange
  obtain ⟨rfl, rfl⟩ := Prod.mk.inj hrange
  obtain ⟨h1, -, h2, -, hS, -⟩ := valid_desc hvalid (List.mem_of_getElem? hd)
  obtain ⟨t, u, r, ht, hrsp, hok, hu, hread⟩ := exec_update_parse hr hcd hd
  refine ⟨t, u, r, _, ht, hrsp, hok, hu, hread, ?_⟩
  rw [decodeSignal_updateFrame hfits hvalid _ _ hd hw hlast, encodeSignal,
    decode_encode_sub h1 h2 hmin hmax hlo hhi]
  exact roundBy_near hround hS

end Sys2Proof.Machine
end

section
/-! PROOFS. The Message Codec (spec/42_codec.md): what PARSE, UPDATE, RESET, STAGE and the reads do in READY, what UPDATE
does when it is repeated, and the transitions of PHASE. -/

namespace Sys2Proof.Machine

/-- A command answered in READY leaves its effect. -/
theorem eq_readyEffect {s t : State} {i : Instr} (hr : s.Ready) (h : exec i s = .next t) : t = readyEffect i s :=
  (Host.Outcome.next.inj ((exec_ready hr i).symm.trans h)).symm

/-! ## PARSE of a full frame -/

theorem exec_parse_full {s : State} (hr : s.Ready) {flen : BitVec 4} (hf : s.cfg.dlen.toNat ≤ flen.toNat)
    (frame : Frame) :
    exec (.parse flen frame) s = .next { s with
      cd := s.cd.writeAll (parseWrites s.cfg frame), rsp := some ⟨.ok, 0, 0, 0⟩,
      cdPulses := parseWrites s.cfg frame } := by
  rw [exec_ready hr, readyEffect, parseReady, if_neg (by omega)]
  rfl

/-- The `k`-th write of a full PARSE is that of CD[k] (42_codec R126). -/
theorem parseWrites_getElem? (c : CodecConfig) (F : Frame) (k : Nat) :
    (parseWrites c F)[k]? = (c.descs[k]?).map fun d => (k, decodeSignal c.par d F) := by
  simp [parseWrites, List.getElem?_zipIdx, Function.comp_def]

theorem length_parseWrites (c : CodecConfig) (F : Frame) : (parseWrites c F).length = c.nsig := by
  simp [parseWrites, CodecConfig.nsig]

/-- W_ENG is wide enough for the decoded value, so PARSE writes it exactly (00_scope R6). -/
theorem decodeSignal_exact {c : CodecConfig} (hfits : c.Fits) {d : Desc} (hd : d ∈ c.descs) (F : Frame) :
    decodeSignal c.par d F =
      rawInt (extractField F d.start d.len d.order d.signed) d.signed * d.scale + d.offset :=
  sint_decodeValue hfits.wEng _ _ (hfits.scale d hd) (hfits.offset d hd)

/-- Settles O26: CD[k] and the pulses from the list of writes, which the first DLEN bytes determine. -/
theorem parseDecodesEverySignal : Obligations.ParseDecodesEverySignal := by
  intro s flen frame hr hfits hvalid hcd hf
  refine ⟨_, _, exec_parse_full hr hf frame, fun k d hd => ?_, fun k hk => ?_, length_parseWrites _ _,
    fun flen' frame' hf' hbytes => ?_⟩
  · refine ⟨decodeSignal s.cfg.par d frame, ?_, ?_, decodeSignal_exact hfits (List.mem_of_getElem? hd) frame⟩
    · rw [read_cd_parse hcd, hd]
      rfl
    · rw [parseWrites_getElem?, hd]
      rfl
  · rw [read_cd_parse hcd, List.getElem?_eq_none hk]
    rfl
  · rw [parseWrites_of_bytes hvalid hbytes]
    exact exec_parse_full hr hf' frame'

/-! ## UPDATE -/

/-- Settles O28: each bit of the frame that the walk leaves. -/
theorem updateCompletes : Obligations.UpdateCompletes := by
  intro s hr hvalid
  refine ⟨updateFrame s.cfg s.readCmd s.cs, exec_ready hr .update, fun k d i hd hw hi hlast => ?_,
    fun p _ hp hout => frameBit_walk_other _ _ _ _ _ hp hout⟩
  obtain ⟨-, -, -, hb, -, -⟩ := valid_desc hvalid (List.mem_of_getElem? hd)
  have hbit := frameBit_walk_last s.cfg.par s.readCmd s.cfg.descs 0 s.cs hd hw hi hb hlast
  rwa [Nat.zero_add] at hbit

/-- What is written into a field does not depend on the frame it is written into. -/
theorem frameBit_insertSignal_covered (c : Params) (G H : Frame) {d : Desc} (e : Eng) (hb : d.start + d.len ≤ 64)
    {p : Nat × Nat} (hp : p ∈ d.bits) : frameBit (insertSignal c G d e) p = frameBit (insertSignal c H d e) p := by
  obtain ⟨i, hi, rfl⟩ := mem_bitSet.1 hp
  rw [frameBit_insertSignal_field c G e hi hb, frameBit_insertSignal_field c H e hi hb]

/-- Two walks leave the same bit when they have the same values for the rows that cover it and, if no row does, start
from frames with the same bit there. -/
theorem frameBit_walk_congr {c : Params} {x y : Nat → Eng} {l : List Desc} {n : Nat} {G H : Frame} {p : Nat × Nat}
    (hb : ∀ d ∈ l, d.start + d.len ≤ 64) (hp : p.2 < 8)
    (hx : ∀ k d, l[k]? = some d → p ∈ d.bits → x (n + k) = y (n + k))
    (hG : (∀ d ∈ l, d.wr = true → p ∉ d.bits) → frameBit G p = frameBit H p) :
    frameBit (walk c x l n G) p = frameBit (walk c y l n H) p := by
  induction l generalizing n G H with
  | nil => exact hG (by simp)
  | cons d l ih =>
    rw [walk_cons, walk_cons]
    refine ih (fun e he => hb e (List.mem_cons_of_mem d he)) (fun k e he hm => ?_) fun hout => ?_
    · have := hx (k + 1) e he hm
      rwa [show n + (k + 1) = n + 1 + k by omega] at this
    · by_cases hcov : d.wr = true ∧ p ∈ d.bits
      · obtain ⟨hw, hm⟩ := hcov
        rw [if_pos hw, if_pos hw, show x n = y n from hx 0 d rfl hm]
        exact frameBit_insertSignal_covered c G H (y n) (hb d List.mem_cons_self) hm
      · have hsame : frameBit G p = frameBit H p := hG fun e he hw hm => by
          rcases List.mem_cons.1 he with rfl | he
          · exact hcov ⟨hw, hm⟩
          · exact hout e he hw hm
        split
        · next hw =>
          have hm : p ∉ d.bits := fun hm => hcov ⟨hw, hm⟩
          rw [frameBit_insertSignal_other c G d _ hp hm, frameBit_insertSignal_other c H d _ hp hm, hsame]
        · exact hsame

/-- A second walk with the same values for the rows that cover a bit changes nothing there (42_codec R127). -/
theorem frameBit_updateFrame_twice {c : CodecConfig} (hc : c.Valid) {x y : Nat → Eng} (G : Frame) {p : Nat × Nat}
    (hp : p.2 < 8) (hxy : ∀ k d, c.descs[k]? = some d → p ∈ d.bits → y k = x k) :
    frameBit (updateFrame c y (updateFrame c x G)) p = frameBit (updateFrame c x G) p := by
  refine frameBit_walk_congr (fun d hd => ?_) hp (fun k d hd hm => ?_) fun hout => ?_
  · obtain ⟨-, -, -, hb, -, -⟩ := valid_desc hc hd
    exact hb
  · rw [Nat.zero_add]
    exact hxy k d hd hm
  · exact frameBit_walk_other c.par x c.descs 0 G hp hout

theorem updateFrame_idem {c : CodecConfig} (hc : c.Valid) (x : Nat → Eng) (G : Frame) :
    updateFrame c x (updateFrame c x G) = updateFrame c x G :=
  frame_ext fun _ _ hp => frameBit_updateFrame_twice hc G hp fun _ _ _ _ => rfl

/-- Settles O30: the walk is idempotent, and the staged values are the same. -/
theorem updateIsRepeatable : Obligations.UpdateIsRepeatable := by
  intro s t hr hvalid h
  obtain rfl := eq_readyEffect hr h
  have hG : updateFrame (updateReady s).cfg (updateReady s).readCmd (updateReady s).cs = (updateReady s).cs :=
    updateFrame_idem hvalid s.readCmd s.cs
  rw [readyEffect, exec_ready (s := updateReady s) hr, readyEffect, updateReady, hG]
  rfl

/-! ## RESET -/

theorem read_cmdFile_writable {c : CodecConfig} (f : Desc → Nat → Eng) {k : Nat} {d : Desc} (hd : c.descs[k]? = some d)
    (hw : d.wr = true) : (cmdFile c f).read k = some (f d k) := by
  simp [read_cmdFile, hd, Option.filter, hw]

/-- Index `k` has a register exactly when its row is there and writable (10_state R21). -/
theorem writable_iff {c : CodecConfig} {k : Nat} :
    c.writable k = true ↔ ∃ d, c.descs[k]? = some d ∧ d.wr = true := by
  rw [CodecConfig.writable, Option.any_eq_true]

theorem read_cmdFile_not_writable {c : CodecConfig} (f : Desc → Nat → Eng) {k : Nat} (h : ¬ c.writable k = true) :
    (cmdFile c f).read k = none := by
  rw [← Option.not_isSome_iff_eq_none, cmdFile_keys]
  exact h

/-- Settles O31: the file of the defaults, read at each index. -/
theorem resetLoadsTheDefaults : Obligations.ResetLoadsTheDefaults := by
  intro s hr
  refine ⟨_, exec_ready hr .reset, fun k d hd hw => read_cmdFile_writable (fun d _ => d.defCmd) hd hw,
    fun k hk => read_cmdFile_not_writable (fun d _ => d.defCmd) fun hw => ?_⟩
  obtain ⟨d, hd, hwr⟩ := writable_iff.1 hw
  exact absurd hwr (by simp [hk d hd])

/-- Settles O32: RESET writes constants of the configuration, the same as the reset sequence. -/
theorem resetIsIdempotentAndForgetsTheState : Obligations.ResetIsIdempotentAndForgetsTheState := by
  refine ⟨fun s t hr h => ?_, fun s s' t t' hr hr' hcfg h h' => ?_, fun s t hr hvalid h => ?_⟩
  · obtain rfl := eq_readyEffect hr h
    exact exec_ready (s := readyEffect .reset s) hr .reset
  · obtain rfl := eq_readyEffect hr h
    obtain rfl := eq_readyEffect hr' h'
    simp [readyEffect, hcfg]
  · obtain rfl := eq_readyEffect hr h
    rw [State.resetSequence, construct_valid (s := s.enterConstructed) hvalid]
    exact ⟨rfl, rfl⟩

/-! ## STAGE -/

theorem stageReady_writable {s : State} {idx : BitVec 8} (hw : s.cfg.writable idx.toNat = true) (eng : Eng) :
    stageReady idx eng s =
      State.respond { s with cmd := s.cmd.write idx.toNat (sint s.cfg.par.wEng eng) } (Response.bare .ok) :=
  if_pos hw

/-- The register file that STAGE leaves: the value at its index, every other register as before (42_codec R131). -/
theorem read_cmd_stageReady {s : State} (hcmd : s.cmd.Wf) {idx : BitVec 8} (hw : s.cfg.writable idx.toNat = true)
    (eng : Eng) (k : Nat) :
    (stageReady idx eng s).cmd.read k = if k = idx.toNat then some (sint s.cfg.par.wEng eng) else s.cmd.read k := by
  rw [stageReady_writable hw]
  exact RegFile.read_write _ _ _ _ hcmd

@[simp] theorem stageReady_cfg (idx : BitVec 8) (eng : Eng) (s : State) : (stageReady idx eng s).cfg = s.cfg :=
  readyEffect_cfg (.stage idx eng) s

@[simp] theorem stageReady_cs (idx : BitVec 8) (eng : Eng) (s : State) : (stageReady idx eng s).cs = s.cs := by
  rcases stageReady_cases idx eng s with ⟨-, h⟩ | ⟨-, h⟩ <;> rw [h] <;> rfl

@[simp] theorem stageReady_draws (idx : BitVec 8) (eng : Eng) (s : State) : (stageReady idx eng s).draws = s.draws := by
  obtain ⟨-, -, hdraws, -⟩ := readyEffect_cases (.stage idx eng) s
  exact hdraws

theorem stageReady_ready {idx : BitVec 8} {eng : Eng} {s : State} (hr : s.Ready) : (stageReady idx eng s).Ready := by
  rcases stageReady_cases idx eng s with ⟨-, h⟩ | ⟨-, h⟩ <;> rw [h] <;> exact hr

/-- STAGE changes no other staged value that UPDATE reads. -/
theorem readCmd_stageReady_other {s : State} (hcmd : s.cmd.Wf) {idx : BitVec 8}
    (hw : s.cfg.writable idx.toNat = true) (eng : Eng) {k : Nat} (hk : k ≠ idx.toNat) :
    (stageReady idx eng s).readCmd k = s.readCmd k := by
  rw [State.readCmd, State.readCmd, read_cmd_stageReady hcmd hw, if_neg hk, stageReady_cfg, stageReady_draws]

/-- Settles O33: the file that STAGE leaves, and a value in range is its own pattern. -/
theorem stageWritesOneRegister : Obligations.StageWritesOneRegister := by
  intro s idx eng d hr hcmd hd hwr
  have hw : s.cfg.writable idx.toNat = true := writable_iff.2 ⟨d, hd, hwr⟩
  have hexec : exec (.stage idx eng) s = .next (stageReady idx eng s) := exec_ready hr _
  have hsame : (stageReady idx eng s).cmd.read idx.toNat = some (sint s.cfg.par.wEng eng) := by
    rw [read_cmd_stageReady hcmd hw, if_pos rfl]
  refine ⟨(stageReady idx eng s).cmd, ?_, hsame, fun k hk => ?_, fun h1 hlo hhi => ?_⟩
  · rw [hexec, stageReady_writable hw]
    rfl
  · rw [read_cmd_stageReady hcmd hw, if_neg hk]
  · rw [hsame, sint_of_mem h1 hlo hhi]

/-- Settles O34: such an index has no register. -/
theorem stageRefusesBadIndex : Obligations.StageRefusesBadIndex := by
  intro s idx eng hr hbad
  have hw : ¬ s.cfg.writable idx.toNat = true := fun hw => by
    obtain ⟨d, hd, hwr⟩ := writable_iff.1 hw
    rcases hbad with hout | ⟨e, he, hne⟩
    · rw [List.getElem?_eq_none hout] at hd
      cases hd
    · obtain rfl := Option.some.inj (hd.symm.trans he)
      simp [hwr] at hne
  rw [exec_ready hr, readyEffect, stageReady, if_neg hw]
  rfl

/-- RESET leaves nothing of what is staged (42_codec R132 c). -/
theorem loadDefaults_stageReady (idx : BitVec 8) (eng : Eng) (s : State) :
    (stageReady idx eng s).loadDefaults.respond (Response.bare .ok) = s.loadDefaults.respond (Response.bare .ok) := by
  rcases stageReady_cases idx eng s with ⟨-, h⟩ | ⟨-, h⟩ <;> rw [h] <;> rfl

/-- A value staged between two UPDATEs reaches the bits of its own field alone (42_codec R132 b). -/
theorem frameBit_update_stage_update {s : State} (hvalid : s.cfg.Valid) (hcmd : s.cmd.Wf) {idx : BitVec 8} {d : Desc}
    (hd : s.cfg.descs[idx.toNat]? = some d) (hwr : d.wr = true) (eng : Eng) {p : Nat × Nat} (hp : p.2 < 8)
    (hm : p ∉ d.bits) :
    frameBit (updateReady (stageReady idx eng (updateReady s))).cs p = frameBit (updateReady s).cs p := by
  have hw : (updateReady s).cfg.writable idx.toNat = true := writable_iff.2 ⟨d, hd, hwr⟩
  rw [updateReady_cs, stageReady_cfg, stageReady_cs]
  refine frameBit_updateFrame_twice hvalid s.cs hp fun k e he hme => ?_
  have hk : k ≠ idx.toNat := by
    rintro rfl
    obtain rfl := Option.some.inj (hd.symm.trans he)
    exact hm hme
  exact readCmd_stageReady_other (s := updateReady s) hcmd hw eng hk

/-- Settles O35: the second write at an index, the two walks, the defaults, and the refused indices of X1. -/
theorem stagingCornerCases : Obligations.StagingCornerCases := by
  refine ⟨fun s t u idx v w hr hcmd hw ht hu => ?_, fun s t u v idx eng d hr hvalid hcmd hd hwr ht hu hv p _ hp hm => ?_,
    fun s t u w idx eng hr ht hu hw => ?_, fun s eng hr hx1 => ?_⟩
  · obtain rfl := eq_readyEffect hr ht
    obtain rfl := eq_readyEffect (stageReady_ready hr) hu
    have hcmd' : (stageReady idx v s).cmd.Wf := by
      rw [stageReady_writable hw]
      exact RegFile.wf_write hcmd _ _
    have hread := read_cmd_stageReady hcmd' (by rwa [stageReady_cfg]) w
    rw [stageReady_cfg] at hread
    refine ⟨(hread _).trans (if_pos rfl), fun k hk => ?_⟩
    exact (hread k).trans ((if_neg hk).trans ((read_cmd_stageReady hcmd hw v k).trans (if_neg hk)))
  · obtain rfl := eq_readyEffect hr ht
    obtain rfl := eq_readyEffect (s := updateReady s) hr hu
    obtain rfl := eq_readyEffect (stageReady_ready (s := updateReady s) hr) hv
    exact frameBit_update_stage_update hvalid hcmd hd hwr eng hp hm
  · obtain rfl := eq_readyEffect hr ht
    obtain rfl := eq_readyEffect (stageReady_ready hr) hu
    obtain rfl := eq_readyEffect hr hw
    exact loadDefaults_stageReady idx eng s
  · refine ⟨stageRefusesBadIndex s 3 eng hr (.inr ?_), stageRefusesBadIndex s 5 eng hr (.inl ?_)⟩ <;> rw [hx1]
    · exact ⟨_, rfl, by decide⟩
    · decide

/-! ## The reads -/

/-- Settles O25: each read answers its constant. -/
theorem getidAndGetperiodComplete : Obligations.GetidAndGetperiodComplete := fun _ hr =>
  ⟨exec_ready hr .getid, exec_ready hr .getperiod⟩

/-- Settles O36: RDSTATE answers what UPDATE answered and what RESET loaded. -/
theorem rdstateCompletes : Obligations.RdstateCompletes := by
  refine fun s hr => ⟨exec_ready hr .rdstate, fun t ht => ?_, fun t ht => ?_⟩
  · obtain rfl := eq_readyEffect hr ht
    exact exec_ready (s := updateReady s) hr .rdstate
  · obtain rfl := eq_readyEffect hr ht
    exact exec_ready (s := readyEffect .reset s) hr .rdstate

/-- Settles O37: the one command that both phases execute. -/
theorem rdstatusCompletesInReadyAndFatal : Obligations.RdstatusCompletesInReadyAndFatal := by
  rintro s (hr | hf)
  · exact exec_ready hr .rdstatus
  · exact exec_rdstatus_fatal hf

/-! ## PHASE -/

/-- The reset sequence ends in READY for a valid configuration and in FATAL for any other (42_codec R135). -/
theorem construct_phase (s : State) : (s.cfg.Valid → s.construct.Ready) ∧ (¬ s.cfg.Valid → s.construct.Fatal) := by
  rcases construct_cases s with ⟨hvalid, hr, -⟩ | ⟨cause, idx, hcheck, hst⟩
  · exact ⟨fun _ => hr, fun hne => absurd hvalid hne⟩
  · refine ⟨fun hvalid => ?_, fun _ => ?_⟩
    · rw [CodecConfig.Valid, hcheck] at hvalid
      cases hvalid
    · rw [State.Fatal, hst, Status.raise_phase]

/-- From CONSTRUCTED, and whenever `rst` is pulsed, the step ends with the reset sequence. -/
theorem step_constructs {s t : State} (hstep : step s = .next t)
    (h : s.status.phase = .constructed ∨ (∃ rest, s.port = .rst :: rest) ∨ ∃ c rest, s.port = .rstDuring c :: rest) :
    ∃ u : State, u.cfg = s.cfg ∧ t.status = u.construct.status := by
  rcases step_cases hstep with ⟨hport, rfl⟩ | ⟨rest, -, rfl⟩ | ⟨c, rest, -, -, rfl⟩ | ⟨c, rest, -, -, rfl⟩ |
    ⟨c, rest, -, -, rfl⟩ | ⟨c, rest, hport, hf, -⟩ | ⟨c, rest, hport, hr, -⟩
  · have hp : s.status.phase = .constructed := by simpa [hport] using h
    exact ⟨s.quiet, rfl, by rw [idle, hp]⟩
  · exact ⟨State.enterConstructed { s with port := rest }, rfl, rfl⟩
  · exact ⟨State.enterConstructed { s with port := rest }, rfl, rfl⟩
  · exact ⟨State.enterConstructed { s with
      port := rest, cd := s.cd.writeAll (cutDone { s with port := rest } c), draws := s.draws + 1 }, rfl, rfl⟩
  · exact ⟨s.quiet, rfl, rfl⟩
  · simp [hport, hf] at h
  · simp [hport, hr] at h

/-- A command executed in READY stays there, or is a pure command that raises Fatal and answers ST_FATAL_NOW. -/
theorem readyEffect_phase (i : Instr) (s : State) :
    ((readyEffect i s).status.phase = s.status.phase ∧
      ∃ r, (readyEffect i s).rsp = some r ∧ r.status ≠ .fatalNow) ∨
    ((i.mnemonic = .extract ∨ i.mnemonic = .insert ∨ i.mnemonic = .encode) ∧
      ∃ cause, readyEffect i s = s.fatalNow cause) := by
  obtain ⟨-, -, -, ⟨e, hrsp⟩ | ⟨flen, frame, rfl, hlt, -⟩ | ⟨cause, -, hi, e⟩, -⟩ := readyEffect_cases i s
  · exact .inl ⟨by rw [e], hrsp⟩
  · rw [readyEffect, parseReady, if_pos hlt]
    exact .inl ⟨rfl, _, rfl, by decide⟩
  · exact .inr ⟨hi, cause, e⟩

/-- An accepted command in READY, legal or not (42_codec R135). -/
theorem runCommand_ready_phase {s t : State} {c : Command} (hr : s.Ready) (h : runCommand c s = .next t) :
    (t.Ready ∧ ∃ r, t.rsp = some r ∧ r.status ≠ .fatalNow) ∨
    (t.Fatal ∧ (∃ r, t.rsp = some r ∧ r.status = .fatalNow) ∧
      ∃ i, decode c = .ok i ∧ (i.mnemonic = .extract ∨ i.mnemonic = .insert ∨ i.mnemonic = .encode)) := by
  rcases runCommand_cases c s with ⟨i, hd, e⟩ | ⟨_, -, e⟩ <;> rw [e] at h
  · obtain rfl := eq_readyEffect hr h
    rcases readyEffect_phase i s with ⟨hp, hrsp⟩ | ⟨hi, cause, e⟩
    · exact .inl ⟨hp.trans hr, hrsp⟩
    · rw [e]
      exact .inr ⟨rfl, ⟨_, rfl, rfl⟩, i, hd, hi⟩
  · rw [execIllegal_ready hr] at h
    obtain rfl := Host.Outcome.next.inj h
    exact .inl ⟨hr, _, rfl, by decide⟩

/-- Settles O51: the end of the reset sequence, the idle step, FATAL as O53 has it, and the commands of READY. -/
theorem phaseTransitions : Obligations.PhaseTransitions := by
  refine ⟨fun s rest hport => ⟨step_rst hport, rfl⟩, fun s t hstep => ⟨fun h => ?_, fun hport hr => ?_,
    fun hport hf => ?_, fun c rest hport hf => ?_, fun c rest hport hr => ?_⟩⟩
  · obtain ⟨u, hcfg, hst⟩ := step_constructs hstep h
    rw [State.Ready, State.Fatal, hst, ← hcfg]
    exact construct_phase u
  · rw [idleStepChangesNoRegister s hport (by simp [hr])] at hstep
    obtain rfl := Host.Outcome.next.inj hstep
    exact hr
  · rw [State.Fatal, firstFatalCauseIsKept s t hf hstep (by simp [hport]) (by simp [hport])]
    exact hf
  · rw [State.Fatal, firstFatalCauseIsKept s t hf hstep (by simp [hport]) (by simp [hport])]
    exact hf
  · rw [step_command hport (by simp [hr])] at hstep
    exact runCommand_ready_phase (s := { s with port := rest }) hr hstep

end Sys2Proof.Machine
end

section
/-! PROOFS. The outcomes (spec/60_exceptions.md): what FATAL refuses, which statuses and causes each decoded command can
end with, and the frame that PARSE skips. -/

namespace Sys2Proof

open Sys2Proof.Machine

/-- The causes with which a command raises Fatal on its own operands (60_exceptions R147): those of CheckField and of
the four tests of ENCODE. -/
def Instr.Raises (i : Instr) (c : Cause) : Prop :=
  match i with
  | .extract .. | .insert .. => c = .lenZero ∨ c = .range
  | .encode .. => c = .lenZero ∨ c = .lenWide ∨ c = .scaleZero ∨ c = .limitOrder
  | .decode .. | .parse .. | .update | .reset | .getid | .getperiod | .stage .. | .rdstate | .rdstatus => False

end Sys2Proof

namespace Sys2Proof.Machine

/-! ## Outcomes of a decoded command -/

/-- In READY the answer ST_FATAL_NOW comes from one of the command's own causes (60_exceptions R141, R147). -/
theorem readyEffect_raises {i : Instr} {s : State} (h : (readyEffect i s).rsp = some (Response.bare .fatalNow)) :
    ∃ c, i.Raises c ∧ readyEffect i s = s.fatalNow c := by
  have hpure : i.mnemonic = .extract ∨ i.mnemonic = .insert ∨ i.mnemonic = .encode := by
    rcases readyEffect_phase i s with ⟨-, r, hr, hne⟩ | ⟨hi, -⟩
    · obtain rfl := Option.some.inj (hr.symm.trans h)
      exact absurd rfl hne
    · exact hi
  cases i with
  | extract flen start len order signed frame =>
    simp only [readyEffect] at h ⊢
    rcases extractReady_cases flen start len order signed frame s with
      ⟨-, e⟩ | ⟨-, -, e⟩ | ⟨-, -, -, e⟩ | ⟨-, -, -, e⟩
    · rw [e] at h; cases h
    · exact ⟨_, .inl rfl, e⟩
    · exact ⟨_, .inr rfl, e⟩
    · rw [e] at h; cases h
  | insert flen start len order value frame =>
    simp only [readyEffect] at h ⊢
    rcases insertReady_cases flen start len order value frame s with
      ⟨-, e⟩ | ⟨-, -, e⟩ | ⟨-, -, -, e⟩ | ⟨-, -, -, e⟩
    · rw [e] at h; cases h
    · exact ⟨_, .inl rfl, e⟩
    · exact ⟨_, .inr rfl, e⟩
    · rw [e] at h; cases h
  | encode eng scale offset len signed min max =>
    simp only [readyEffect, encodeReady] at h ⊢
    rcases encodeResult_cases (sint s.cfg.par.wEng eng) (sint s.cfg.par.wCoef scale) (sint s.cfg.par.wCoef offset)
      len.toNat signed (sint s.cfg.par.wEng min) (sint s.cfg.par.wEng max) s with ⟨c, hc, e⟩ | ⟨-, e⟩
    · exact ⟨c, hc, e⟩
    · rw [e] at h; cases h
  | decode | parse | update | reset | getid | getperiod | stage | rdstate | rdstatus => simp [Instr.mnemonic] at hpure

/-- The entries of the outcome table (60_exceptions R147) by the answer's status, in READY and in FATAL. -/
theorem exec_outcome {s t : State} {i : Instr} (hwf : i.WellFormed) (h : exec i s = .next t) :
    ∃ r, t.rsp = some r ∧
      (r.status = .ok ∨ (r.status = .short ∧ i.mnemonic = .parse) ∨ (r.status = .badIdx ∧ i.mnemonic = .stage) ∨
        (r.status = .fatal ∧ i ≠ .rdstatus) ∨
        (r.status = .fatalNow ∧ i.Raises t.status.fcause ∧ t.status.fidx = 0xFF)) := by
  rcases exec_next h with ⟨-, rfl⟩ | ⟨-, hi, rfl⟩ | ⟨-, rfl, rfl⟩
  · rcases readyEffect_rsp i s with ⟨r, hr, hok⟩ | ⟨st, href, hr⟩
    · exact ⟨r, hr, .inl hok.status⟩
    refine ⟨_, hr, .inr ?_⟩
    cases href with
    | illegal hill => exact absurd hwf hill
    | short hi => exact .inl ⟨rfl, hi⟩
    | badIdx hi => exact .inr (.inl ⟨rfl, hi⟩)
    | fatalNow =>
      obtain ⟨c, hc, e⟩ := readyEffect_raises hr
      rw [e]
      exact .inr (.inr (.inr ⟨rfl, hc, rfl⟩))
  · exact ⟨_, rfl, .inr (.inr (.inr (.inl ⟨rfl, hi⟩)))⟩
  · exact ⟨_, rfl, .inl rfl⟩

/-- Settles O40: each command's row of the table is what its mnemonic and its causes leave of the entries. -/
theorem commandOutcomeTable : Obligations.CommandOutcomeTable := by
  intro s t i hwf hexec
  obtain ⟨r, hr, hout⟩ := exec_outcome hwf hexec
  refine ⟨r, hr, ?_⟩
  cases i <;> simpa [Instr.mnemonic, Instr.Raises] using hout

/-! ## FATAL -/

/-- Settles O39: a record with another header is refused, legal or not; so is every decoded command but RDSTATUS; the
idle step is that of any settled block. -/
theorem fatalRefusesAllButRdstatus : Obligations.FatalRefusesAllButRdstatus := by
  refine ⟨fun s c rest hport hf hc => ?_, fun s i hf hi => exec_fatal hf hi, fun s hport hf => ?_⟩
  · rw [step_command hport (by simp [hf])]
    exact runCommand_fatal (s := { s with port := rest }) hf hc
  · exact idleStepChangesNoRegister s hport (by simp [hf])

/-! ## The skipped frame -/

/-- Settles O27: the short branch of PARSE does not look at the frame. -/
theorem shortFrameIsSkipped : Obligations.ShortFrameIsSkipped := by
  intro s flen frame hr hlt
  rw [exec_ready hr, readyEffect, parseReady, if_pos hlt]
  rfl

end Sys2Proof.Machine
end

section
/-! PROOFS. Reset and hazards (spec/70_reset_and_hazards.md): where the reset sequence ends, what the construction checks
accept and report, the command that `rst` cuts, and the first UPDATE after a RESET. -/

namespace Sys2Proof.Machine

/-! ## The reset sequence -/

/-- The reset sequence whose checks all pass: the defaults are loaded (10_state R33). -/
theorem resetSequence_valid {s : State} (h : s.cfg.Valid) :
    s.resetSequence = { s with
      cs := s.cfg.defBytes, cmd := cmdFile s.cfg fun d _ => d.defCmd,
      status := { phase := .ready, logShort := false, fcause := .noFatal, fidx := 0 }, rsp := none, cdPulses := [] } := by
  rw [State.resetSequence, construct_valid (s := s.enterConstructed) h]
  rfl

/-- The reset sequence whose checks fail: CS and CMD hold free values (10_state R33, log 6). -/
theorem resetSequence_invalid {s : State} {cause : Cause} {idx : BitVec 8}
    (h : constructionCheck s.cfg = some (cause, idx)) :
    s.resetSequence = { s with
      cs := Config.freeCs s.draws, cmd := cmdFile s.cfg fun _ k => sint s.cfg.par.wEng (Config.freeCmd s.draws k),
      draws := s.draws + 1,
      status := { phase := .fatal, logShort := false, fcause := cause, fidx := idx }, rsp := none, cdPulses := [] } := by
  rw [State.resetSequence, construct_invalid (s := s.enterConstructed) h]
  rfl

/-- Index `k` has no register when its row is absent or not writable (10_state R21). -/
theorem read_cmdFile_no_writable_row {c : CodecConfig} (f : Desc → Nat → Eng) {k : Nat}
    (h : ∀ d, c.descs[k]? = some d → d.wr = false) : (cmdFile c f).read k = none :=
  read_cmdFile_not_writable f fun hw => by
    obtain ⟨d, hd, hwr⟩ := writable_iff.1 hw
    simp [h d hd] at hwr

/-- Settles O42: the two ends of the reset sequence. -/
theorem resetSequenceReadyOrFatal : Obligations.ResetSequenceReadyOrFatal := by
  intro s rest hport
  rw [step_rst hport]
  constructor
  · intro hvalid
    rw [resetSequence_valid (s := { s with port := rest }) hvalid]
    exact ⟨_, rfl, fun k d hd hw => read_cmdFile_writable _ hd hw, fun k hk => read_cmdFile_no_writable_row _ hk⟩
  · intro cause idx hcheck
    rw [resetSequence_invalid (s := { s with port := rest }) hcheck]
    exact ⟨_, _, _, rfl⟩

/-! ## The construction checks -/

/-- Test f of step 2, said of the bits (70_reset_and_hazards R163). -/
theorem clashes_eq_false {earlier : List Desc} {d : Desc} :
    clashes earlier d = false ↔ ∀ e ∈ earlier, d.ovl = true ∨ e.ovl = true ∨ ∀ p ∈ d.bits, p ∉ e.bits := by
  have hpair (e : Desc) : (!d.ovl && !e.ovl && d.overlaps e) = false ↔
      d.ovl = true ∨ e.ovl = true ∨ ∀ p ∈ d.bits, p ∉ e.bits := by
    have hover : d.overlaps e = false ↔ ∀ p ∈ d.bits, p ∉ e.bits := by
      rw [← Bool.not_eq_true, overlaps_iff]
      push Not
      rfl
    simp only [Bool.and_eq_false_iff, Bool.not_eq_false', hover, or_assoc]
  simp only [clashes, List.any_eq_false, Bool.not_eq_true, hpair]

/-- The checks of row `k` look at the rows below it and accept exactly the rows the rule accepts. -/
theorem checkDesc_eq_none_iff_rowOk {c : CodecConfig} {k : Nat} {d : Desc} :
    checkDesc c.dlen.toNat (c.descs.take k) d = none ↔ c.RowOk k d := by
  rw [checkDesc_none, clashes_eq_false]
  constructor
  · rintro ⟨hres, hlen, hrange, hscale, hlim, hapart⟩
    refine ⟨hres, hlen, hrange, hscale, hlim, fun j e hj he => hapart e (List.mem_of_getElem? (i := j) ?_)⟩
    rw [List.getElem?_take_of_lt hj, he]
  · intro h
    refine ⟨h.reserved, h.len, h.range, h.scale, h.limits, fun e he => ?_⟩
    obtain ⟨j, hj⟩ := List.mem_iff_getElem?.1 he
    obtain ⟨hjk, he⟩ := Option.ite_none_right_eq_some.1 (List.getElem?_take ▸ hj)
    exact h.apart j e hjk he

/-- A failing row reports the first of its tests that fails; only test f is left when a to e pass. -/
theorem checkDesc_failing {dlen : Nat} {earlier : List Desc} {d : Desc} (h : checkDesc dlen earlier d ≠ none) :
    checkDesc dlen earlier d = some
      (if ctlReserved d.ctl ≠ 0 then .rsvd
        else if d.len < 1 then .lenZero
        else if 8 * dlen < d.start + d.len then .range
        else if d.scale = 0 then .scaleZero
        else if d.max < d.min then .limitOrder
        else .overlap) := by
  unfold checkDesc at h ⊢
  split_ifs at h ⊢
  any_goals rfl
  exact absurd rfl h

/-- Past the geometry only the rows are checked. -/
theorem constructionCheck_rows {c : CodecConfig} (h1 : 1 ≤ c.dlen.toNat) (h8 : c.dlen.toNat ≤ 8) (hn : c.nsig ≤ 255) :
    constructionCheck c = checkDescs c.dlen.toNat [] 0 c.descs :=
  if_neg (by omega)

/-- A row with another DEF_CMD. -/
def withDefCmd (f : Desc → Eng) (d : Desc) : Desc := { d with defCmd := f d }

theorem checkDesc_withDefCmd (f : Desc → Eng) (dlen : Nat) (earlier : List Desc) (d : Desc) :
    checkDesc dlen (earlier.map (withDefCmd f)) (withDefCmd f d) = checkDesc dlen earlier d := by
  have hclash : clashes (earlier.map (withDefCmd f)) (withDefCmd f d) = clashes earlier d := List.any_map
  rw [checkDesc, hclash]
  rfl

/-- No check looks at DEF_CMD. -/
theorem checkDescs_withDefCmd (f : Desc → Eng) (dlen : Nat) (earlier : List Desc) (k : Nat) (l : List Desc) :
    checkDescs dlen (earlier.map (withDefCmd f)) k (l.map (withDefCmd f)) = checkDescs dlen earlier k l := by
  induction l generalizing earlier k with
  | nil => rfl
  | cons d l ih =>
    have hrest := ih (earlier ++ [d]) (k + 1)
    rw [List.map_append] at hrest
    rw [List.map_cons, checkDescs, checkDescs, checkDesc_withDefCmd]
    cases checkDesc dlen earlier d with
    | some cause => rfl
    | none => exact hrest

/-- READY is kept by every command but the pure ones that check their own operands (60_exceptions R141). -/
theorem readyEffect_ready {i : Instr} {s : State} (hr : s.Ready)
    (hi : ¬ (i.mnemonic = .extract ∨ i.mnemonic = .insert ∨ i.mnemonic = .encode)) : (readyEffect i s).Ready := by
  rcases readyEffect_phase i s with ⟨hphase, -⟩ | ⟨hpure, -⟩
  · exact hphase.trans hr
  · exact absurd hpure hi

/-- Settles O43: each row's checks are the rule's tests, and the walk over the rows stops at the lowest that fails. -/
theorem constructionChecksInOrder : Obligations.ConstructionChecksInOrder := by
  refine ⟨fun c => ?_, fun c hgeo => if_pos hgeo, fun c k d h1 h8 hn hd hbad hlow => ?_,
    fun c par id period defBytes f => ?_, fun s i hr _ hi => ?_⟩
  · simpa only [checkDesc_eq_none_iff_rowOk] using valid_iff (c := c)
  · have hfail := checkDesc_failing (mt checkDesc_eq_none_iff_rowOk.1 hbad)
    rw [constructionCheck_rows h1 h8 hn]
    refine checkDescs_some.2 ⟨k, d, hd, hfail, by rw [Nat.zero_add], fun j e hj he => ?_⟩
    exact checkDesc_eq_none_iff_rowOk.2 (hlow j e hj he)
  · have hrows := checkDescs_withDefCmd f c.dlen.toNat [] 0 c.descs
    simp only [constructionCheck, CodecConfig.nsig, List.length_map]
    rw [← hrows]
    rfl
  · refine ⟨_, exec_ready hr i, readyEffect_ready hr fun hpure => ?_⟩
    rcases hi with h | h | h | h <;> simp [h] at hpure

/-! ## A command cut by `rst` -/

/-- A write that a cut command may have made is that of a full PARSE in READY (70_reset_and_hazards R165). -/
theorem read_cutWrites {s : State} {c : Command} {k : Nat} {v : Eng} (h : RegFile.read (cutWrites s c) k = some v) :
    ∃ (flen : BitVec 4) (frame : Frame) (d : Desc), s.Ready ∧ decode c = .ok (.parse flen frame) ∧
      s.cfg.dlen.toNat ≤ flen.toNat ∧ s.cfg.descs[k]? = some d ∧ v = decodeSignal s.cfg.par d frame := by
  unfold cutWrites at h
  split at h
  · next flen frame hr hdec =>
    split at h
    · cases h
    · next hlen =>
      rw [read_parseWrites] at h
      obtain ⟨d, hd, rfl⟩ := Option.map_eq_some_iff.1 h
      exact ⟨flen, frame, d, hr, hdec, by omega, hd, rfl⟩
  · cases h

theorem wf_cutWrites (s : State) (c : Command) : RegFile.Wf (cutWrites s c) := by
  rcases cutWrites_cases s c with h | ⟨frame, h⟩ <;> rw [h]
  · exact List.Pairwise.nil
  · exact wf_parseWrites s.cfg frame

/-- CD[k] after the cut: the old value, or the one that the command would have written. -/
theorem read_cd_cut {s : State} (hcd : s.cd.Wf) (c : Command) (k : Nat) :
    (s.cd.writeAll (cutDone s c)).read k = s.cd.read k ∨
      ∃ v, RegFile.read (cutWrites s c) k = some v ∧ (s.cd.writeAll (cutDone s c)).read k = some v := by
  have hw : RegFile.Wf (cutDone s c) := (wf_cutWrites s c).filter _
  rw [RegFile.read_writeAll hcd hw]
  cases hv : RegFile.read (cutDone s c) k with
  | none => exact .inl Option.none_or
  | some v => exact .inr ⟨v, RegFile.read_filter (wf_cutWrites s c) hv, Option.some_or⟩

theorem cutByReset_valid {s : State} (h : s.cfg.Valid) (c : Command) :
    s.cutByReset c = { s.resetSequence with
      cd := s.cd.writeAll (cutDone s c), cdPulses := cutDone s c, draws := s.draws + 1 } := by
  have hcut := resetSequence_valid (s := { s with cd := s.cd.writeAll (cutDone s c), draws := s.draws + 1 }) h
  rw [State.cutByReset, hcut, resetSequence_valid h]

/-- Settles O45: the reset sequence over a CD in which some of the cut command's writes are done. -/
theorem resetDuringACommandDropsIt : Obligations.ResetDuringACommandDropsIt := by
  intro s c rest hport hphase hvalid hcd
  rw [step_cut hport hphase, cutByReset_valid (s := { s with port := rest }) hvalid,
    resetSequence_valid (s := { s with port := rest }) hvalid, resetSequence_valid hvalid]
  refine ⟨_, _, _, rfl, fun k => ?_⟩
  rcases read_cd_cut (s := { s with port := rest }) hcd c k with hold | ⟨v, hv, hnew⟩
  · exact .inl hold
  · obtain ⟨flen, frame, d, hr, hdec, hlen, hd, rfl⟩ := read_cutWrites hv
    exact .inr ⟨flen, frame, d, hr, hdec, hlen, hd, hnew⟩

/-! ## The first UPDATE after a RESET -/

/-- The walk looks at the staged values of the writable signals alone (42_codec R127). -/
theorem updateFrame_congr {c : CodecConfig} {x y : Nat → Eng} (G : Frame)
    (h : ∀ k d, c.descs[k]? = some d → d.wr = true → x k = y k) : updateFrame c x G = updateFrame c y G :=
  walk_ext c.par c.descs 0 G x y fun k d hd hw => by rw [Nat.zero_add, h k d hd hw]

/-- After RESET the staged value of a writable signal is its DEF_CMD (42_codec R129). -/
theorem readCmd_reset (s : State) {k : Nat} {d : Desc} (hd : s.cfg.descs[k]? = some d) (hw : d.wr = true) :
    (readyEffect .reset s).readCmd k = d.defCmd := by
  have hread : (readyEffect .reset s).cmd.read k = some d.defCmd := read_cmdFile_writable (fun d _ => d.defCmd) hd hw
  rw [State.readCmd, hread, Option.getD_some]

/-- Settles O46: UPDATE after RESET walks over DEF_BYTES with the DEF_CMD. -/
theorem defaultConsistencyDecidesTheFirstUpdate : Obligations.DefaultConsistencyDecidesTheFirstUpdate := by
  intro s t u hr ht hu
  obtain rfl := eq_readyEffect hr ht
  obtain rfl := eq_readyEffect (s := readyEffect .reset s) hr hu
  have hcs : (updateReady (readyEffect .reset s)).cs =
      updateFrame s.cfg (fun k => ((s.cfg.descs[k]?).map Desc.defCmd).getD 0) s.cfg.defBytes :=
    updateFrame_congr (c := s.cfg) s.cfg.defBytes fun k d hd hw => by simp [readCmd_reset s hd hw, hd]
  rw [readyEffect, hcs]

end Sys2Proof.Machine
end
